-- ==== Sys2Proof/Word.lean ====
section
/-! DEFINITION. The word types of the core: bytes, 16-bit words and register indices (spec R6, R8, R70). -/

namespace Sys2Proof

/-- A memory byte or a general register's contents (R6: 8 bits). -/
abbrev Byte := BitVec 8

/-- An instruction word, the index register, the program counter or a stack entry (R6: 16 bits). -/
abbrev Word := BitVec 16

/-- The index of a general register V0 to VF (R21), the x or y field of a word (R70). It only ever
names a register, so it is an index and not a bit vector. -/
abbrev Reg := Fin 16

/-- The flag register VF, register 0xF (R22). -/
abbrev VF : Reg := 15

end Sys2Proof
end

