-- ==== Sys2Proof/Syntax.lean ====
section
/-! DEFINITION. The instructions: one constructor per row of spec/opcode_table.json (spec R72 and the
opcode map), in the table's order. Operands are the decoded fields of R70, each in a type that holds
exactly the values its field can take (R78), so the machine never sees a raw encoding. A word that
matches no row is no instruction; the decoder answers UNIMPL for it (R77). -/

namespace Sys2Proof

inductive Instr where
  /-- 00E0, clear screen (R91) -/
  | cls
  /-- 00EE, return from subroutine (R92) -/
  | ret
  /-- 1nnn, jump (R93) -/
  | jp (nnn : BitVec 12)
  /-- 2nnn, call subroutine (R94) -/
  | call (nnn : BitVec 12)
  /-- 3xkk, skip if Vx = kk (R95) -/
  | seImm (x : Reg) (kk : Byte)
  /-- 4xkk, skip if Vx ≠ kk (R96) -/
  | sneImm (x : Reg) (kk : Byte)
  /-- 5xy0, skip if Vx = Vy (R97); the ignored bottom nibble (R76) is not kept (log entry 7) -/
  | seReg (x y : Reg)
  /-- 6xkk, load immediate (R111) -/
  | ldImm (x : Reg) (kk : Byte)
  /-- 7xkk, add immediate (R112) -/
  | addImm (x : Reg) (kk : Byte)
  /-- 8xy0, copy (R113) -/
  | ldReg (x y : Reg)
  /-- 8xy1 (R114) -/
  | orReg (x y : Reg)
  /-- 8xy2 (R115) -/
  | andReg (x y : Reg)
  /-- 8xy3 (R116) -/
  | xorReg (x y : Reg)
  /-- 8xy4, add with carry (R117) -/
  | addReg (x y : Reg)
  /-- 8xy5, subtract with not-borrow (R118) -/
  | sub (x y : Reg)
  /-- 8xy6, shift right by one (R119) -/
  | shr (x y : Reg)
  /-- 8xy7, reverse subtract (R120) -/
  | subn (x y : Reg)
  /-- 8xyE, shift left by one (R121) -/
  | shl (x y : Reg)
  /-- 9xy0, skip if Vx ≠ Vy (R98); the ignored bottom nibble (R76) is not kept (log entry 7) -/
  | sneReg (x y : Reg)
  /-- Annn, load index register (R140) -/
  | ldI (nnn : BitVec 12)
  /-- Bnnn, jump with offset V0 (R99) -/
  | jpV0 (nnn : BitVec 12)
  /-- Cxkk, random byte and mask (R122) -/
  | rnd (x : Reg) (kk : Byte)
  /-- Dxyn, draw sprite (R130); n is the row count 0..15 -/
  | drw (x y : Reg) (n : Fin 16)
  /-- Ex9E, skip if key pressed (R141) -/
  | skp (x : Reg)
  /-- ExA1, skip if key not pressed (R142) -/
  | sknp (x : Reg)
  /-- Fx07, read the delay timer (R144) -/
  | ldVxDT (x : Reg)
  /-- Fx0A, wait for a key (R145) -/
  | ldVxK (x : Reg)
  /-- Fx15, set the delay timer (R146) -/
  | ldDTVx (x : Reg)
  /-- Fx18, set the sound timer (R147) -/
  | ldSTVx (x : Reg)
  /-- Fx1E, add to the index register (R148) -/
  | addI (x : Reg)
  /-- Fx29, font glyph address (R149) -/
  | ldF (x : Reg)
  /-- Fx33, binary-coded-decimal store (R150) -/
  | ldB (x : Reg)
  /-- Fx55, block store (R151) -/
  | ldMemVx (x : Reg)
  /-- Fx65, block load (R152) -/
  | ldVxMem (x : Reg)
  deriving DecidableEq, Repr

end Sys2Proof
end

