-- ==== Sys2Proof/Decode.lean ====
section
/-! DEFINITION. The decoder (spec R70 to R79), the encoder written from the same opcode map, and the
map itself as a table of rows. -/

namespace Sys2Proof

/-! ## Fields (R70) -/

/-- `op`, w[15:12]. -/
def fieldOp (w : Word) : Nat := (w.extractLsb' 12 4).toNat
/-- `x`, w[11:8]. -/
def fieldX (w : Word) : Reg := (w.extractLsb' 8 4).toFin
/-- `y`, w[7:4]. -/
def fieldY (w : Word) : Reg := (w.extractLsb' 4 4).toFin
/-- `n`, w[3:0]. -/
def fieldN (w : Word) : Fin 16 := (w.extractLsb' 0 4).toFin
/-- `kk`, w[7:0]. -/
def fieldKK (w : Word) : Byte := w.extractLsb' 0 8
/-- `nnn`, w[11:0]. -/
def fieldNNN (w : Word) : BitVec 12 := w.extractLsb' 0 12

/-! ## The decode tree (R72) -/

/-- The four families that hold UNIMPL words (R77). -/
inductive UnimplFamily where
  | family0 | family8 | familyE | familyF
  deriving DecidableEq, Repr

/-- What a 16-bit word decodes to: "a tagged variant of the ... named operations plus an
'unimplemented' variant" (R72). A rejected word names the family that rejects it. -/
inductive Decoded where
  | instr (i : Instr)
  | unimpl (family : UnimplFamily)
  deriving DecidableEq, Repr

/-- Family 0x0: the whole word is compared (R73). -/
def decode0 (w : Word) : Decoded :=
  if w = 0x00E0 then .instr .cls else if w = 0x00EE then .instr .ret else .unimpl .family0

/-- Family 0x8: the bottom nibble selects (R74). -/
def decode8 (w : Word) : Decoded :=
  match (fieldN w).val with
  | 0x0 => .instr (.ldReg (fieldX w) (fieldY w))
  | 0x1 => .instr (.orReg (fieldX w) (fieldY w))
  | 0x2 => .instr (.andReg (fieldX w) (fieldY w))
  | 0x3 => .instr (.xorReg (fieldX w) (fieldY w))
  | 0x4 => .instr (.addReg (fieldX w) (fieldY w))
  | 0x5 => .instr (.sub (fieldX w) (fieldY w))
  | 0x6 => .instr (.shr (fieldX w) (fieldY w))
  | 0x7 => .instr (.subn (fieldX w) (fieldY w))
  | 0xE => .instr (.shl (fieldX w) (fieldY w))
  | _ => .unimpl .family8

/-- Family 0xE: the bottom byte selects (R75). -/
def decodeE (w : Word) : Decoded :=
  match (fieldKK w).toNat with
  | 0x9E => .instr (.skp (fieldX w))
  | 0xA1 => .instr (.sknp (fieldX w))
  | _ => .unimpl .familyE

/-- Family 0xF: the bottom byte selects (R75). -/
def decodeF (w : Word) : Decoded :=
  match (fieldKK w).toNat with
  | 0x07 => .instr (.ldVxDT (fieldX w))
  | 0x0A => .instr (.ldVxK (fieldX w))
  | 0x15 => .instr (.ldDTVx (fieldX w))
  | 0x18 => .instr (.ldSTVx (fieldX w))
  | 0x1E => .instr (.addI (fieldX w))
  | 0x29 => .instr (.ldF (fieldX w))
  | 0x33 => .instr (.ldB (fieldX w))
  | 0x55 => .instr (.ldMemVx (fieldX w))
  | 0x65 => .instr (.ldVxMem (fieldX w))
  | _ => .unimpl .familyF

/-- The decode tree of R72, total on the 16-bit words. Families 1 to 7, 9 and A to D are selected by
the top nibble alone (R76), so the bottom nibble of `5xyN` and `9xyN` is not read. -/
def decodeWord (w : Word) : Decoded :=
  match fieldOp w with
  | 0x0 => decode0 w
  | 0x1 => .instr (.jp (fieldNNN w))
  | 0x2 => .instr (.call (fieldNNN w))
  | 0x3 => .instr (.seImm (fieldX w) (fieldKK w))
  | 0x4 => .instr (.sneImm (fieldX w) (fieldKK w))
  | 0x5 => .instr (.seReg (fieldX w) (fieldY w))
  | 0x6 => .instr (.ldImm (fieldX w) (fieldKK w))
  | 0x7 => .instr (.addImm (fieldX w) (fieldKK w))
  | 0x8 => decode8 w
  | 0x9 => .instr (.sneReg (fieldX w) (fieldY w))
  | 0xA => .instr (.ldI (fieldNNN w))
  | 0xB => .instr (.jpV0 (fieldNNN w))
  | 0xC => .instr (.rnd (fieldX w) (fieldKK w))
  | 0xD => .instr (.drw (fieldX w) (fieldY w) (fieldN w))
  | 0xE => decodeE w
  | _ => decodeF w

/-! ## Bytes (R55, R56) -/

/-- Two memory bytes make a word, the byte at the lower address its most significant half (R55). -/
def wordOfBytes (hi lo : Byte) : Word := hi ++ lo

/-- The byte of a word that stands at the lower address (R56). -/
def hiByte (w : Word) : Byte := w.extractLsb' 8 8

/-- The byte of a word that stands at the higher address (R56). -/
def loByte (w : Word) : Byte := w.extractLsb' 0 8

/-- Why a byte sequence is rejected. -/
inductive Reject where
  /-- fewer than the two bytes every instruction has (R79) -/
  | tooShort
  /-- the word is UNIMPL (R77) -/
  | unimpl (family : UnimplFamily)
  deriving DecidableEq, Repr

/-- What a byte sequence decodes to: an instruction and the bytes after it, or a rejection by name. -/
inductive DecodedBytes where
  | instr (i : Instr) (rest : List Byte)
  | reject (why : Reject)
  deriving DecidableEq, Repr

/-- Decoding takes "the next 2 bytes", whatever they are (R79). -/
def decodeBytes : List Byte → DecodedBytes
  | hi :: lo :: rest =>
    match decodeWord (wordOfBytes hi lo) with
    | .instr i => .instr i rest
    | .unimpl f => .reject (.unimpl f)
  | _ => .reject .tooShort

/-! ## The encoder (the opcode map of spec 30_encoding.md, section 4) -/

/-- A word of the form `op nnn`. -/
def packNNN (op : BitVec 4) (nnn : BitVec 12) : Word := op ++ nnn
/-- A word of the form `op x kk`. -/
def packXKK (op : BitVec 4) (x : Reg) (kk : Byte) : Word := op ++ BitVec.ofFin (w := 4) x ++ kk
/-- A word of the form `op x y n`. -/
def packXYN (op : BitVec 4) (x y n : Fin 16) : Word :=
  op ++ BitVec.ofFin (w := 4) x ++ BitVec.ofFin (w := 4) y ++ BitVec.ofFin (w := 4) n

/-- The word of an instruction. The nibble `5xy0` and `9xy0` ignore is written 0, as their patterns
have it (R76; log entry 7). -/
def encode : Instr → Word
  | .cls => 0x00E0
  | .ret => 0x00EE
  | .jp nnn => packNNN 0x1 nnn
  | .call nnn => packNNN 0x2 nnn
  | .seImm x kk => packXKK 0x3 x kk
  | .sneImm x kk => packXKK 0x4 x kk
  | .seReg x y => packXYN 0x5 x y 0
  | .ldImm x kk => packXKK 0x6 x kk
  | .addImm x kk => packXKK 0x7 x kk
  | .ldReg x y => packXYN 0x8 x y 0x0
  | .orReg x y => packXYN 0x8 x y 0x1
  | .andReg x y => packXYN 0x8 x y 0x2
  | .xorReg x y => packXYN 0x8 x y 0x3
  | .addReg x y => packXYN 0x8 x y 0x4
  | .sub x y => packXYN 0x8 x y 0x5
  | .shr x y => packXYN 0x8 x y 0x6
  | .subn x y => packXYN 0x8 x y 0x7
  | .shl x y => packXYN 0x8 x y 0xE
  | .sneReg x y => packXYN 0x9 x y 0
  | .ldI nnn => packNNN 0xA nnn
  | .jpV0 nnn => packNNN 0xB nnn
  | .rnd x kk => packXKK 0xC x kk
  | .drw x y n => packXYN 0xD x y n
  | .skp x => packXKK 0xE x 0x9E
  | .sknp x => packXKK 0xE x 0xA1
  | .ldVxDT x => packXKK 0xF x 0x07
  | .ldVxK x => packXKK 0xF x 0x0A
  | .ldDTVx x => packXKK 0xF x 0x15
  | .ldSTVx x => packXKK 0xF x 0x18
  | .addI x => packXKK 0xF x 0x1E
  | .ldF x => packXKK 0xF x 0x29
  | .ldB x => packXKK 0xF x 0x33
  | .ldMemVx x => packXKK 0xF x 0x55
  | .ldVxMem x => packXKK 0xF x 0x65

/-- An instruction's two bytes in address order (R56). -/
def encodeBytes (i : Instr) : List Byte := [hiByte (encode i), loByte (encode i)]

/-! ## The opcode map as a table -/

/-- One row of the opcode map: a word matches it when `(w & mask) = match`. -/
structure OpcodeRow where
  mnemonic : String
  mask : Word
  value : Word
  deriving DecidableEq, Repr

/-- "A word matches a row when `(w & mask) = match`" (30_encoding.md, section 4). -/
def OpcodeRow.matchesWord (r : OpcodeRow) (w : Word) : Bool := decide (w &&& r.mask = r.value)

/-- Rows 00E0 to 7xkk of the opcode map. -/
def opcodeRowsLow : List OpcodeRow :=
  [⟨"CLS", 0xFFFF, 0x00E0⟩, ⟨"RET", 0xFFFF, 0x00EE⟩,
   ⟨"JP_nnn", 0xF000, 0x1000⟩, ⟨"CALL_nnn", 0xF000, 0x2000⟩,
   ⟨"SE_Vx__kk", 0xF000, 0x3000⟩, ⟨"SNE_Vx__kk", 0xF000, 0x4000⟩,
   ⟨"SE_Vx__Vy", 0xF000, 0x5000⟩, ⟨"LD_Vx__kk", 0xF000, 0x6000⟩,
   ⟨"ADD_Vx__kk", 0xF000, 0x7000⟩]

/-- Rows 8xy0 to 8xyE. -/
def opcodeRows8 : List OpcodeRow :=
  [⟨"LD_Vx__Vy", 0xF00F, 0x8000⟩, ⟨"OR_Vx__Vy", 0xF00F, 0x8001⟩,
   ⟨"AND_Vx__Vy", 0xF00F, 0x8002⟩, ⟨"XOR_Vx__Vy", 0xF00F, 0x8003⟩,
   ⟨"ADD_Vx__Vy", 0xF00F, 0x8004⟩, ⟨"SUB_Vx__Vy", 0xF00F, 0x8005⟩,
   ⟨"SHR_Vx__Vy", 0xF00F, 0x8006⟩, ⟨"SUBN_Vx__Vy", 0xF00F, 0x8007⟩,
   ⟨"SHL_Vx__Vy", 0xF00F, 0x800E⟩]

/-- Rows 9xy0 to ExA1. -/
def opcodeRowsMid : List OpcodeRow :=
  [⟨"SNE_Vx__Vy", 0xF000, 0x9000⟩, ⟨"LD_I__nnn", 0xF000, 0xA000⟩,
   ⟨"JP_V0__nnn", 0xF000, 0xB000⟩, ⟨"RND_Vx__kk", 0xF000, 0xC000⟩,
   ⟨"DRW_Vx__Vy__n", 0xF000, 0xD000⟩, ⟨"SKP_Vx", 0xF0FF, 0xE09E⟩,
   ⟨"SKNP_Vx", 0xF0FF, 0xE0A1⟩]

/-- Rows Fx07 to Fx65. -/
def opcodeRowsF : List OpcodeRow :=
  [⟨"LD_Vx__DT", 0xF0FF, 0xF007⟩, ⟨"LD_Vx__K", 0xF0FF, 0xF00A⟩,
   ⟨"LD_DT__Vx", 0xF0FF, 0xF015⟩, ⟨"LD_ST__Vx", 0xF0FF, 0xF018⟩,
   ⟨"ADD_I__Vx", 0xF0FF, 0xF01E⟩, ⟨"LD_F__Vx", 0xF0FF, 0xF029⟩,
   ⟨"LD_B__Vx", 0xF0FF, 0xF033⟩, ⟨"LD__I___Vx", 0xF0FF, 0xF055⟩,
   ⟨"LD_Vx___I", 0xF0FF, 0xF065⟩]

/-- The 34 rows of the opcode map (spec/opcode_table.json). -/
def opcodeTable : List OpcodeRow := opcodeRowsLow ++ opcodeRows8 ++ opcodeRowsMid ++ opcodeRowsF

/-- The table's name of an instruction. -/
def Instr.mnemonic : Instr → String
  | .cls => "CLS" | .ret => "RET" | .jp _ => "JP_nnn" | .call _ => "CALL_nnn"
  | .seImm _ _ => "SE_Vx__kk" | .sneImm _ _ => "SNE_Vx__kk" | .seReg _ _ => "SE_Vx__Vy"
  | .ldImm _ _ => "LD_Vx__kk" | .addImm _ _ => "ADD_Vx__kk" | .ldReg _ _ => "LD_Vx__Vy"
  | .orReg _ _ => "OR_Vx__Vy" | .andReg _ _ => "AND_Vx__Vy" | .xorReg _ _ => "XOR_Vx__Vy"
  | .addReg _ _ => "ADD_Vx__Vy" | .sub _ _ => "SUB_Vx__Vy" | .shr _ _ => "SHR_Vx__Vy"
  | .subn _ _ => "SUBN_Vx__Vy" | .shl _ _ => "SHL_Vx__Vy" | .sneReg _ _ => "SNE_Vx__Vy"
  | .ldI _ => "LD_I__nnn" | .jpV0 _ => "JP_V0__nnn" | .rnd _ _ => "RND_Vx__kk"
  | .drw _ _ _ => "DRW_Vx__Vy__n" | .skp _ => "SKP_Vx" | .sknp _ => "SKNP_Vx"
  | .ldVxDT _ => "LD_Vx__DT" | .ldVxK _ => "LD_Vx__K" | .ldDTVx _ => "LD_DT__Vx"
  | .ldSTVx _ => "LD_ST__Vx" | .addI _ => "ADD_I__Vx" | .ldF _ => "LD_F__Vx"
  | .ldB _ => "LD_B__Vx" | .ldMemVx _ => "LD__I___Vx" | .ldVxMem _ => "LD_Vx___I"

/-! ## The host's view -/

/-- The instruction the decoder reads from a word numbered as spec/opcode_table.json numbers it. Every
instruction is one 16-bit word (R70, R79), laid out big-endian (R56); a row has 16 bits, and bits above
`nbits` are 0. -/
def decodeTableWord (nbits w : Nat) : Option Instr :=
  let v : Word := BitVec.ofNat 16 (w % 2 ^ nbits)
  match decodeBytes [hiByte v, loByte v] with
  | .instr i _ => some i
  | .reject _ => none

end Sys2Proof
end

