-- ==== Sys2Proof/Config.lean ====
section
/-! DEFINITION. The configuration parameters of the core (spec R5), its fixed sizes (R6), the default
font (R52), and the free values: what the spec leaves open or takes from outside the core. -/

namespace Sys2Proof

/-- The sprite-wrap strategy `SPRITE_WRAP` (R5, R132, R133). -/
inductive SpriteWrap where
  /-- "wrap every pixel variant" (R132) -/
  | wrap
  /-- "clamped-sprite variant" (R133) -/
  | clip
  deriving DecidableEq, Repr

/-- The 80 bytes of the font atlas (R52). -/
abbrev Font := Vector Byte 80

/-- The sixteen key states, true while pressed (R30). -/
abbrev Keypad := Vector Bool 16

/-- The configuration of R5, fixed when the core is constructed (R33, R180). -/
structure Cfg where
  /-- true: `Fx55` and `Fx65` leave I unchanged; false: they advance it (R151, R152) -/
  loadStoreQuirk : Bool
  /-- true: `8xy6` and `8xyE` shift Vx in place; false: they shift Vy (R119, R121) -/
  shiftQuirk : Bool
  /-- instructions per tick (R172, R175); R5 asks for an integer >= 1, see `Cfg.wellFormed` -/
  cyclesPerTick : Nat
  spriteWrap : SpriteWrap
  font : Font
  /-- the highest write-protected address, 12 bits (R54) -/
  wpTop : BitVec 12
  deriving DecidableEq, Repr

namespace Config

/-- Memory size in bytes: addresses 0x000 to 0xFFF (R6, R50). -/
def memSize : Nat := 4096

/-- Where a program starts: PC after RESET and the first ROM byte (R180, R182). -/
def programStart : Nat := 0x200

/-- The longest ROM, 4096 - 0x200 bytes (R182). -/
def romMax : Nat := 3584

/-- DESIGN CHOICE (log entry 1): the OPEN parameter P1, a free value of the machine after reset. -/
opaque loadStoreQuirk : Bool

/-- DESIGN CHOICE (log entry 1): the OPEN parameter P2, a free value of the machine after reset. -/
opaque shiftQuirk : Bool

/-- DESIGN CHOICE (log entry 3): the byte the random source gives where `State.rndIn` lists none, a
free draw "under no law" (R7, D29), indexed by `State.draws`. -/
opaque rndByte : Nat → Byte

/-- DESIGN CHOICE (log entry 4): the key vector the host gives where `State.host` lists no command
(R41 `keys_in`), a free value indexed by `State.draws`. -/
opaque hostKeys : Nat → Keypad

/-- The glyphs of digits 0 to 7 (R52). -/
def fontLow : List Byte :=
  [0xF0, 0x90, 0x90, 0x90, 0xF0] ++ [0x20, 0x60, 0x20, 0x20, 0x70] ++
  [0xF0, 0x10, 0xF0, 0x80, 0xF0] ++ [0xF0, 0x10, 0xF0, 0x10, 0xF0] ++
  [0x90, 0x90, 0xF0, 0x10, 0x10] ++ [0xF0, 0x80, 0xF0, 0x10, 0xF0] ++
  [0xF0, 0x80, 0xF0, 0x90, 0xF0] ++ [0xF0, 0x10, 0x20, 0x40, 0x40]

/-- The glyphs of digits 8 to F (R52). -/
def fontHigh : List Byte :=
  [0xF0, 0x90, 0xF0, 0x90, 0xF0] ++ [0xF0, 0x90, 0xF0, 0x10, 0xF0] ++
  [0xF0, 0x90, 0xF0, 0x90, 0x90] ++ [0xE0, 0x90, 0xE0, 0x90, 0xE0] ++
  [0xF0, 0x80, 0x80, 0x80, 0xF0] ++ [0xE0, 0x90, 0x90, 0x90, 0xE0] ++
  [0xF0, 0x80, 0xF0, 0x80, 0xF0] ++ [0xF0, 0x80, 0xF0, 0x80, 0x80]

/-- The default of the parameter `FONT` (R5, R52; D19, log entry 2). -/
def font : Font := Vector.mk (List.toArray (fontLow ++ fontHigh)) rfl

/-- The configuration of `State.reset`: the spec's defaults (R5; log entry 2) with the two OPEN
parameters free (log entry 1). -/
def standard : Cfg where
  loadStoreQuirk := loadStoreQuirk
  shiftQuirk := shiftQuirk
  cyclesPerTick := 1
  spriteWrap := .wrap
  font := font
  wpTop := 0x200

end Config

end Sys2Proof
end

