-- ==== Sys2Proof/Machine/State.lean ====
section
/-! DEFINITION. The machine's state as plain data (spec R20 and the rules it names), the reasons a step
can stop, and the state after RESET (R180). -/

namespace Sys2Proof.Machine

/-! ## Events (R160, R161) -/

/-- The causes of a diagnostic, which does not stop the core (R160). -/
inductive DiagCause where
  /-- an UNIMPL word was executed (R77) -/
  | unimpl
  /-- a write at or below `WP_TOP` was dropped (R54) -/
  | wprot
  deriving DecidableEq, Repr

/-- The causes of a fatal fault, which halts the core (R160). -/
inductive FaultCause where
  /-- `2nnn` with SP = 16 (R94) -/
  | stackOverflow
  /-- `00EE` with SP = 0 (R92) -/
  | stackUnderflow
  /-- a fetch or a data range that leaves the memory (R55, R59) -/
  | memBounds
  /-- `Ex9E` or `ExA1` with V[x] > 0xF (R143) -/
  | keyRange
  deriving DecidableEq, Repr

/-- A diagnostic record `(cause, pc, word, addr)` (R35, R162). -/
structure DiagRecord where
  cause : DiagCause
  pc : Word
  word : Word
  addr : Option Nat
  deriving DecidableEq, Repr

/-- What `Faulted(cause, pc, word, addr)` holds (R34): `word` is none for a fetch fault, `addr` none
where no memory address is involved. -/
structure FaultRecord where
  cause : FaultCause
  pc : Word
  word : Option Word
  addr : Option Nat
  deriving DecidableEq, Repr

/-- The run state (R34). -/
inductive RunState where
  | running
  | faulted (r : FaultRecord)
  deriving DecidableEq, Repr

/-! ## The host (R43) -/

/-- The commands the host can give the core (R43), beside reading its outputs. -/
inductive HostCmd where
  /-- RESET(cfg, rom) (R180) -/
  | reset (cfg : Cfg) (rom : List Byte)
  /-- TICK(keys_in) (R172) -/
  | tick (keys : Keypad)
  /-- ACK_REDRAW (R43) -/
  | ackRedraw
  deriving DecidableEq, Repr

/-! ## The state tuple (R20) -/

/-- Memory: the bytes that differ from what an unlisted address reads as, by rising address. See
`Memory.wf` for the canonical form and `Memory.unlisted` for the reset contents (R50). -/
abbrev Memory := List Host.Cell

/-- `fb[c][r]`, column 0..63, row 0..31; true means lit (R31). -/
abbrev Framebuffer := Vector (Vector Bool 32) 64

/-- The core's state: the tuple of R20 under the spec's names, then the model's own fields. -/
structure State where
  /-- memory (R50) -/
  mem : Memory
  /-- the general registers V0 to VF (R21) -/
  V : Vector Byte 16
  /-- the index register (R24) -/
  I : Word
  /-- the program counter (R25) -/
  PC : Word
  /-- the call stack (R26) -/
  stack : Vector Word 16
  /-- the number of stack entries in use, 0 to 16 (R27) -/
  SP : Fin 17
  /-- the delay timer (R28) -/
  DT : Byte
  /-- the sound timer (R29) -/
  ST : Byte
  /-- the keypad (R30) -/
  key : Keypad
  /-- the framebuffer (R31) -/
  fb : Framebuffer
  /-- the redraw flag (R32) -/
  redraw : Bool
  /-- the run state (R34) -/
  run : RunState
  /-- the diagnostic log, oldest record first (R35) -/
  diaglog : List DiagRecord
  /-- the configuration (R5, R33) -/
  cfg : Cfg
  /-- DESIGN CHOICE (log entry 4), the model's own: the loop counter of TICK (R172), how many Steps the
  current tick has run; 0 at a tick boundary -/
  tickStep : Nat
  /-- DESIGN CHOICE (log entry 4), the model's own: the host's coming commands, next one first -/
  host : List HostCmd
  /-- DESIGN CHOICE (log entry 3), the model's own: the bytes the random source has ready, next one
  first (R41 `rnd_in`) -/
  rndIn : List Byte
  /-- DESIGN CHOICE (log entry 3), the model's own: how many free values have been taken -/
  draws : Nat
  deriving DecidableEq, Repr

/-! ## Stops -/

/-- No step of this core ends in a fault outcome: the spec describes what every fatal fault does (R167),
so a fault is a next state whose `run` is `faulted` (log entry 6). The type has no constructor, which
says so. Safe. -/
inductive Fault : Type
  deriving DecidableEq, Repr

/-- The refusals. The last two are RESET's, never an instruction's. -/
inductive Refusal where
  /-- Raised by a rejected arm of `exec` only: an instruction with no meaning yet. Safe. -/
  | notModelled (mnemonic : String)
  /-- Raised by RESET for a ROM of more than 3584 bytes: "RESET is refused. No core is constructed"
  (R182). Safe. -/
  | romTooLong
  /-- Raised by RESET for `cyclesPerTick` = 0, outside the parameter's range "integer >= 1" (R5; log
  entry 9). Safe. -/
  | badConfig
  deriving DecidableEq, Repr

/-! ## Reset (R180) -/

/-- The framebuffer with every pixel unlit. -/
def Framebuffer.blank : Framebuffer := Vector.replicate 64 (Vector.replicate 32 false)

/-- The machine right after RESET with the configuration `Config.standard` and the empty ROM (R180, R182;
log entries 1, 2, 8 and 11). The font at 0x000..0x04F and the zeros elsewhere are what unlisted addresses
read as, so memory lists nothing. -/
def State.reset : State where
  mem := []
  V := Vector.replicate 16 0
  I := 0
  PC := 0x200
  stack := Vector.replicate 16 0
  SP := 0
  DT := 0
  ST := 0
  key := Vector.replicate 16 false
  fb := Framebuffer.blank
  redraw := false
  run := .running
  diaglog := []
  cfg := Config.standard
  tickStep := 0
  host := []
  rndIn := []
  draws := 0

end Sys2Proof.Machine
end

