-- ==== Sys2Proof/Machine/Ops.lean ====
section
/-! DEFINITION. The named operations over memory, registers, stack, framebuffer and timers, the
diagnostic (spec R162), and taking a fatal fault (R167) as one shared operation. There is no return from
a fault beside it: only RESET leaves `Faulted` (R168), see `Machine/Tick.lean`. -/

namespace Sys2Proof.Machine

/-! ## Memory (R50 to R54) -/

namespace Memory

/-- What an unlisted address reads as: the reset contents, the font at 0x000..0x04F (R52, R181) and zero
elsewhere (R50). -/
def unlisted (font : Font) (a : Nat) : Byte := if h : a < 80 then font[a] else 0

/-- The byte listed at an address. -/
def lookup : Memory → Nat → Option Byte
  | [], _ => none
  | (b, v) :: m, a => if a = b then some v else lookup m a

/-- The byte at an address. -/
def read (font : Font) (m : Memory) (a : Nat) : Byte := (lookup m a).getD (unlisted font a)

/-- Take an address off the list. -/
def erase : Memory → Nat → Memory
  | [], _ => []
  | (b, v) :: m, a => if a = b then erase m a else (b, v) :: erase m a

/-- List a byte at its place. -/
def insert : Memory → Nat → Byte → Memory
  | [], a, v => [(a, v)]
  | (b, w) :: m, a, v =>
    if a < b then (a, v) :: (b, w) :: m
    else if a = b then (a, v) :: m
    else (b, w) :: insert m a v

/-- Store a byte and keep the canonical form: a byte equal to what the unlisted address reads as is not
listed. -/
def write (font : Font) (m : Memory) (a : Nat) (v : Byte) : Memory :=
  if v = unlisted font a then erase m a else insert m a v

/-- The canonical form: addresses strictly rising, all inside 0x000..0xFFF, no entry equal to what its
address reads as unlisted. -/
abbrev wf (font : Font) (m : Memory) : Prop :=
  m.Pairwise (fun c d => c.1 < d.1) ∧
    ∀ c ∈ m, c.1 < Config.memSize ∧ c.2 ≠ unlisted font c.1

/-- The listed cells of a byte sequence copied to `a`, `a + 1`, ... over reset memory (R182). -/
def image (font : Font) : Nat → List Byte → Memory
  | _, [] => []
  | a, b :: bs => if b = unlisted font a then image font (a + 1) bs else (a, b) :: image font (a + 1) bs

end Memory

namespace State

/-- `mem[a]`, the model's read of one byte (R53). Addresses above 0xFFF are not memory: every caller has
checked its whole range first (R55, R59), and none reads there (log entry 12). -/
def byteAt (s : State) (a : Nat) : Byte := Memory.read s.cfg.font s.mem a

/-- Store a byte without the protection check: the ROM copy and the font are stored so (R181, R182). -/
def pokeByte (s : State) (a : Nat) (v : Byte) : State :=
  { s with mem := Memory.write s.cfg.font s.mem a v }

/-! ## Registers -/

/-- `V[x]` (R10). -/
def reg (s : State) (x : Reg) : Byte := s.V[x.val]'x.isLt

/-- `V[x] <- v` (R10). -/
def setReg (s : State) (x : Reg) (v : Byte) : State := { s with V := s.V.set x.val v x.isLt }

/-- `I <- v`. -/
def setI (s : State) (v : Word) : State := { s with I := v }

/-- `PC <- target`, "the write that transfers control" (R10). -/
def setPC (s : State) (v : Word) : State := { s with PC := v }

/-- `PC <- (PC + 2) mod 65536`, before dispatch (R71). -/
def advance (s : State) : State := { s with PC := s.PC + 2 }

/-- `PC_i`, the executing instruction's own address: PC holds `(PC_i + 2) mod 65536` while it executes
(R25), so it is PC - 2 (log entry 7). -/
def instrAddr (s : State) : Word := s.PC - 2

/-- The skip primitive (R90). -/
def skipIf (s : State) (c : Bool) : State := { s with PC := if c then s.PC + 2 else s.PC }

/-! ## Events -/

/-- `diag(cause, info)`: append one record and change nothing else (R162). -/
def diag (s : State) (cause : DiagCause) (word : Word) (addr : Option Nat) : State :=
  { s with diaglog := s.diaglog ++ [{ cause, pc := s.instrAddr, word, addr }] }

/-- Taking a fatal fault (R167): `run` becomes `Faulted(...)` and PC holds PC_i. It is applied to the
state before the instruction's first write, so every other write of the step is discarded with it. -/
def takeFault (s : State) (r : FaultRecord) : State := { s with PC := r.pc, run := .faulted r }

/-- `raise Fault(cause, pc = PC_i, word = w, addr)` from an instruction (R11, R167). The word `w` is the
instruction's encoding: no form that raises has an ignored bit (log entry 7). -/
def raise (s : State) (cause : FaultCause) (i : Instr) (addr : Option Nat) : State :=
  s.takeFault { cause, pc := s.instrAddr, word := some (encode i), addr }

/-! ## Checked stores (R54) -/

/-- `MemWrite(a, 1, v)` for an address inside the memory: at or below `WP_TOP` the write is dropped with
a WPROT diagnostic, above it the byte is stored (R54, R163). `i` is the storing instruction. -/
def memWrite (s : State) (i : Instr) (a : Nat) (v : Byte) : State :=
  if a ≤ s.cfg.wpTop.toNat then s.diag .wprot (encode i) (some a) else s.pokeByte a v

/-- Checked stores of a byte sequence at `a`, `a + 1`, ..., each byte on its own (R54, R58). -/
def storeBytes (i : Instr) : State → Nat → List Byte → State
  | s, _, [] => s
  | s, a, b :: bs => storeBytes i (s.memWrite i a b) (a + 1) bs

/-! ## The call stack (R26, R27) -/

/-- `stack[SP] <- v; SP <- SP + 1`, or none when all 16 entries are in use (R94). -/
def push (s : State) (v : Word) : Option State :=
  if h : s.SP.val < 16 then
    some { s with stack := s.stack.set s.SP.val v h, SP := ⟨s.SP.val + 1, by omega⟩ }
  else none

/-- `SP <- SP - 1` and the entry `stack[SP]`, which is not cleared, or none when no entry is in use
(R92). -/
def pop (s : State) : Option (Word × State) :=
  if h : 0 < s.SP.val then
    some (s.stack[s.SP.val - 1]'(by omega), { s with SP := ⟨s.SP.val - 1, by omega⟩ })
  else none

/-! ## The random source (R7) -/

/-- `draw_rnd()`: the next byte the random source has ready, else a free value (R7; log entry 3). -/
def drawRnd (s : State) : Byte × State :=
  match s.rndIn with
  | b :: rest => (b, { s with rndIn := rest })
  | [] => (Config.rndByte s.draws, { s with draws := s.draws + 1 })

/-! ## Timers (R173) -/

/-- A timer counts down by 1 and stays at 0: "They never wrap" (R173). -/
def countDown (t : Byte) : Byte := if t = 0 then 0 else t - 1

/-- The end of a completed tick: both timers are decremented if nonzero (R172, R173). -/
def decTimers (s : State) : State := { s with DT := countDown s.DT, ST := countDown s.ST }

end State

/-! ## The framebuffer (R31) -/

namespace Framebuffer

/-- `fb[c][r]`. -/
def pixel (fb : Framebuffer) (c : Fin 64) (r : Fin 32) : Bool := (fb[c.val]'c.isLt)[r.val]'r.isLt

/-- `fb[c][r] <- fb[c][r] ^ 1`. -/
def flip (fb : Framebuffer) (c : Fin 64) (r : Fin 32) : Framebuffer :=
  fb.set c.val ((fb[c.val]'c.isLt).set r.val (!pixel fb c r) r.isLt) c.isLt

/-- Draw one visible lit sprite pixel: the collision is tested before the XOR and is sticky (R134). -/
def drawCell (acc : Framebuffer × Bool) (p : Fin 64 × Fin 32) : Framebuffer × Bool :=
  (flip acc.1 p.1 p.2, acc.2 || pixel acc.1 p.1 p.2)

/-- Draw a sequence of pixels on a framebuffer: the result and whether any lit pixel was turned off. -/
def draw (fb : Framebuffer) (cells : List (Fin 64 × Fin 32)) : Framebuffer × Bool :=
  cells.foldl drawCell (fb, false)

end Framebuffer

/-- Apply a function to the state of a next outcome; a stop stays as it is. -/
def onNext (f : State → State) : Host.Outcome State Fault Refusal → Host.Outcome State Fault Refusal
  | .next s => .next (f s)
  | .fault r => .fault r
  | .refused r => .refused r

end Sys2Proof.Machine
end

