-- ==== Sys2Proof/Machine/Flags.lean ====
section
/-! DEFINITION. Every flag computation of the spec: the carry, not-borrow, shifted-out and collision
values written to VF (R22), and the flag write itself (R110). -/

namespace Sys2Proof.Machine

/-- A flag's value in VF is 0 or 1 (R22). -/
def flagByte (b : Bool) : Byte := if b then 1 else 0

/-- Carry: 1 if the exact sum "exceeds 255" (R117). -/
def carry (a b : Byte) : Bool := decide (a.toNat + b.toNat > 255)

/-- Not-borrow: 1 if minuend >= subtrahend (R118, R120). -/
def notBorrow (minuend subtrahend : Byte) : Bool := decide (minuend.toNat ≥ subtrahend.toNat)

/-- The bit a right shift by one shifts out, bit 0 (R119). -/
def shiftedOutRight (v : Byte) : Bool := v.getLsbD 0

/-- The bit a left shift by one shifts out, bit 7 (R121). -/
def shiftedOutLeft (v : Byte) : Bool := v.getLsbD 7

namespace State

/-- Write a flag to VF (R22). -/
def setFlag (s : State) (b : Bool) : State := s.setReg VF (flagByte b)

/-- Write a result to Vx and then, last, its flag to VF, so with x = F the flag stays and the result is
lost (R110). -/
def setRegFlag (s : State) (x : Reg) (v : Byte) (b : Bool) : State := (s.setReg x v).setFlag b

end State

end Sys2Proof.Machine
end

