-- ==== Sys2Proof/Machine/Operands.lean ====
section
/-! DEFINITION. Every operand form of the spec: immediates (R78), the register range V0..Vx, the shift
source (R119), the key index (R143), the data range at I (R59), decimal digits (R150), and the placement
of sprite pixels (R131 to R133). -/

namespace Sys2Proof.Machine

/-- `zext_16(nnn)`: a 12-bit address as a 16-bit value (R78). -/
def zext16 (nnn : BitVec 12) : Word := nnn.setWidth 16

/-- The registers V0 to Vx inclusive, in ascending order (R78, R151). -/
def regsUpTo (x : Reg) : List Reg := (List.range (x.val + 1)).map (Fin.ofNat 16)

/-- The hundreds, tens and ones digits of a byte (R150). -/
def bcdDigits (v : Byte) : List Byte :=
  [BitVec.ofNat 8 (v.toNat / 100), BitVec.ofNat 8 (v.toNat / 10 % 10), BitVec.ofNat 8 (v.toNat % 10)]

/-- The address of the font glyph for a digit, 5 * V[x], unmasked (R52, R149). -/
def glyphAddr (v : Byte) : Word := BitVec.ofNat 16 (5 * v.toNat)

namespace State

/-- The shift source: Vx in place under `shiftQuirk`, else Vy (R119, R121). -/
def shiftSource (s : State) (x y : Reg) : Byte := if s.cfg.shiftQuirk then s.reg x else s.reg y

/-- `KeyAt(v)`: the key's state, or none for a value above 0xF, which faults (R143). -/
def keyAt (s : State) (v : Byte) : Option Bool :=
  if h : v.toNat < 16 then some (s.key[v.toNat]'h) else none

/-- The least pressed key, if any is pressed (R145). -/
def leastKey (s : State) : Option Reg := (regsUpTo 15).find? fun k => s.key[k.val]'k.isLt

/-- The range check before a data access of `n` bytes at I (R59): the first address above 0xFFF when the
last address of the range, an exact integer, lies above 0xFFF. A range of no bytes always passes. -/
def rangeFault (s : State) (n : Nat) : Option Nat :=
  if 1 ≤ n ∧ s.I.toNat + n - 1 > 0xFFF then some (max s.I.toNat 0x1000) else none

/-- I after a block access of `n` registers: advanced by n unless `loadStoreQuirk` (R151, R152). -/
def blockI (s : State) (n : Nat) : Word :=
  if s.cfg.loadStoreQuirk then s.I else s.I + BitVec.ofNat 16 n

/-- `V[k] <- MemRead(I + k, 1)` for each register k of a list in turn (R152). -/
def loadRegs (s : State) (ks : List Reg) : State :=
  ks.foldl (fun t k => t.setReg k (t.byteAt (t.I.toNat + k.val))) s

end State

/-- `Place(x0, y0, c, r)`: the framebuffer cell of the sprite pixel at column offset c and row offset r,
or none where it is not visible (R132, R133). -/
def place (mode : SpriteWrap) (x0 y0 : Byte) (c r : Nat) : Option (Fin 64 × Fin 32) :=
  match mode with
  | .wrap => some (Fin.ofNat 64 (x0.toNat + c), Fin.ofNat 32 (y0.toNat + r))
  | .clip =>
    if h : x0.toNat % 64 + c < 64 ∧ y0.toNat % 32 + r < 32 then
      some (⟨x0.toNat % 64 + c, h.1⟩, ⟨y0.toNat % 32 + r, h.2⟩)
    else none

/-- The visible lit pixels of one sprite row: bit 7 - c of its byte is drawn at column offset c, the most
significant bit first (R131). -/
def rowCells (mode : SpriteWrap) (x0 y0 : Byte) (b : Byte) (r : Nat) : List (Fin 64 × Fin 32) :=
  (List.range 8).filterMap fun c => if b.getLsbD (7 - c) then place mode x0 y0 c r else none

/-- The visible lit pixels of the n-row sprite at I, row by row (R130). -/
def State.spriteCells (s : State) (x0 y0 : Byte) (n : Nat) : List (Fin 64 × Fin 32) :=
  (List.range n).flatMap fun r => rowCells s.cfg.spriteWrap x0 y0 (s.byteAt (s.I.toNat + r)) r

end Sys2Proof.Machine
end

