-- ==== Sys2Proof/Machine/Arith.lean ====
section
/-! DEFINITION. Register and arithmetic instructions (spec 42_arithmetic.md). Operands are read before any
register is written, and a flag is written last (R110). -/

namespace Sys2Proof.Machine

/-- LD Vx, kk (R111). -/
def execLdImm (x : Reg) (kk : Byte) (s : State) : Host.Outcome State Fault Refusal :=
  .next (s.setReg x kk)

/-- ADD Vx, kk (R112): "8-bit wraparound, no flag side effect". -/
def execAddImm (x : Reg) (kk : Byte) (s : State) : Host.Outcome State Fault Refusal :=
  .next (s.setReg x (s.reg x + kk))

/-- LD Vx, Vy (R113). -/
def execLdReg (x y : Reg) (s : State) : Host.Outcome State Fault Refusal :=
  .next (s.setReg x (s.reg y))

/-- OR Vx, Vy (R114); VF is unchanged (D10). -/
def execOrReg (x y : Reg) (s : State) : Host.Outcome State Fault Refusal :=
  .next (s.setReg x (s.reg x ||| s.reg y))

/-- AND Vx, Vy (R115); VF is unchanged (D10). -/
def execAndReg (x y : Reg) (s : State) : Host.Outcome State Fault Refusal :=
  .next (s.setReg x (s.reg x &&& s.reg y))

/-- XOR Vx, Vy (R116); VF is unchanged (D10). -/
def execXorReg (x y : Reg) (s : State) : Host.Outcome State Fault Refusal :=
  .next (s.setReg x (s.reg x ^^^ s.reg y))

/-- ADD Vx, Vy (R117). -/
def execAddReg (x y : Reg) (s : State) : Host.Outcome State Fault Refusal :=
  .next (s.setRegFlag x (s.reg x + s.reg y) (carry (s.reg x) (s.reg y)))

/-- SUB Vx, Vy (R118): Vx - Vy. -/
def execSub (x y : Reg) (s : State) : Host.Outcome State Fault Refusal :=
  .next (s.setRegFlag x (s.reg x - s.reg y) (notBorrow (s.reg x) (s.reg y)))

/-- SHR Vx, Vy (R119). -/
def execShr (x y : Reg) (s : State) : Host.Outcome State Fault Refusal :=
  .next (s.setRegFlag x (s.shiftSource x y >>> 1) (shiftedOutRight (s.shiftSource x y)))

/-- SUBN Vx, Vy (R120): Vy - Vx. -/
def execSubn (x y : Reg) (s : State) : Host.Outcome State Fault Refusal :=
  .next (s.setRegFlag x (s.reg y - s.reg x) (notBorrow (s.reg y) (s.reg x)))

/-- SHL Vx, Vy (R121). -/
def execShl (x y : Reg) (s : State) : Host.Outcome State Fault Refusal :=
  .next (s.setRegFlag x (s.shiftSource x y <<< 1) (shiftedOutLeft (s.shiftSource x y)))

/-- RND Vx, kk (R122): a byte is drawn on every execution. -/
def execRnd (x : Reg) (kk : Byte) (s : State) : Host.Outcome State Fault Refusal :=
  .next (s.drawRnd.2.setReg x (s.drawRnd.1 &&& kk))

end Sys2Proof.Machine
end

