-- ==== Sys2Proof/Machine/Control.lean ====
section
/-! DEFINITION. Control-flow instructions (spec 41_control_flow.md). Every meaning is applied to the state
after the common fetch, whose PC is already `(PC_i + 2) mod 65536` (R71). -/

namespace Sys2Proof.Machine

/-- CLS (R91). -/
def execCls (s : State) : Host.Outcome State Fault Refusal :=
  .next { s with fb := Framebuffer.blank, redraw := true }

/-- RET (R92): pop, or STACK_UNDERFLOW when SP = 0. -/
def execRet (s : State) : Host.Outcome State Fault Refusal :=
  match s.pop with
  | some (target, t) => .next (t.setPC target)
  | none => .next (s.raise .stackUnderflow .ret none)

/-- JP nnn (R93). -/
def execJp (nnn : BitVec 12) (s : State) : Host.Outcome State Fault Refusal :=
  .next (s.setPC (zext16 nnn))

/-- CALL nnn (R94): push the already advanced PC, or STACK_OVERFLOW when SP = 16. -/
def execCall (nnn : BitVec 12) (s : State) : Host.Outcome State Fault Refusal :=
  match s.push s.PC with
  | some t => .next (t.setPC (zext16 nnn))
  | none => .next (s.raise .stackOverflow (.call nnn) none)

/-- SE Vx, kk (R95). -/
def execSeImm (x : Reg) (kk : Byte) (s : State) : Host.Outcome State Fault Refusal :=
  .next (s.skipIf (s.reg x == kk))

/-- SNE Vx, kk (R96). -/
def execSneImm (x : Reg) (kk : Byte) (s : State) : Host.Outcome State Fault Refusal :=
  .next (s.skipIf (s.reg x != kk))

/-- SE Vx, Vy (R97). -/
def execSeReg (x y : Reg) (s : State) : Host.Outcome State Fault Refusal :=
  .next (s.skipIf (s.reg x == s.reg y))

/-- SNE Vx, Vy (R98). -/
def execSneReg (x y : Reg) (s : State) : Host.Outcome State Fault Refusal :=
  .next (s.skipIf (s.reg x != s.reg y))

/-- JP V0, nnn (R99): the sum is not reduced to 12 bits. -/
def execJpV0 (nnn : BitVec 12) (s : State) : Host.Outcome State Fault Refusal :=
  .next (s.setPC (BitVec.ofNat 16 ((s.reg 0).toNat + (zext16 nnn).toNat)))

end Sys2Proof.Machine
end

