-- ==== Sys2Proof/Machine/Display.lean ====
section
/-! DEFINITION. The draw instruction (spec 43_display.md). The clear instruction stands with control flow,
as in the spec. -/

namespace Sys2Proof.Machine

/-- DRW Vx, Vy, n (R130): the range check, then the drawing, the collision flag, the redraw flag. -/
def execDrw (x y : Reg) (n : Fin 16) (s : State) : Host.Outcome State Fault Refusal :=
  match s.rangeFault n.val with
  | some a => .next (s.raise .memBounds (.drw x y n) (some a))
  | none =>
    let (fb', collision) := s.fb.draw (s.spriteCells (s.reg x) (s.reg y) n.val)
    .next { ({ s with fb := fb' }).setFlag collision with redraw := true }

end Sys2Proof.Machine
end

