-- ==== Sys2Proof/Machine/Index.lean ====
section
/-! DEFINITION. Index-register and memory instructions (spec 44_keypad_timer_memory.md, R140 and R148 to
R152). -/

namespace Sys2Proof.Machine

/-- LD I, nnn (R140). -/
def execLdI (nnn : BitVec 12) (s : State) : Host.Outcome State Fault Refusal :=
  .next (s.setI (zext16 nnn))

/-- ADD I, Vx (R148): modulo 65536, no flag. -/
def execAddI (x : Reg) (s : State) : Host.Outcome State Fault Refusal :=
  .next (s.setI (BitVec.ofNat 16 (s.I.toNat + (s.reg x).toNat)))

/-- LD F, Vx (R149). -/
def execLdF (x : Reg) (s : State) : Host.Outcome State Fault Refusal :=
  .next (s.setI (glyphAddr (s.reg x)))

/-- LD B, Vx (R150): three checked stores, or MEM_BOUNDS before any of them. -/
def execLdB (x : Reg) (s : State) : Host.Outcome State Fault Refusal :=
  match s.rangeFault 3 with
  | some a => .next (s.raise .memBounds (.ldB x) (some a))
  | none => .next (s.storeBytes (.ldB x) s.I.toNat (bcdDigits (s.reg x)))

/-- LD [I], Vx (R151): checked stores of V0 to Vx, or MEM_BOUNDS before any of them; I then advances
unless `loadStoreQuirk`. -/
def execLdMemVx (x : Reg) (s : State) : Host.Outcome State Fault Refusal :=
  match s.rangeFault (x.val + 1) with
  | some a => .next (s.raise .memBounds (.ldMemVx x) (some a))
  | none =>
    .next ((s.storeBytes (.ldMemVx x) s.I.toNat ((regsUpTo x).map s.reg)).setI (s.blockI (x.val + 1)))

/-- LD Vx, [I] (R152): loads of V0 to Vx, or MEM_BOUNDS before any of them; I then advances unless
`loadStoreQuirk`. -/
def execLdVxMem (x : Reg) (s : State) : Host.Outcome State Fault Refusal :=
  match s.rangeFault (x.val + 1) with
  | some a => .next (s.raise .memBounds (.ldVxMem x) (some a))
  | none => .next ((s.loadRegs (regsUpTo x)).setI (s.blockI (x.val + 1)))

end Sys2Proof.Machine
end

