-- ==== Sys2Proof/Machine/Keypad.lean ====
section
/-! DEFINITION. Keypad instructions (spec 44_keypad_timer_memory.md, R141 to R145). -/

namespace Sys2Proof.Machine

/-- SKP Vx (R141): skip if the key is pressed, or KEY_RANGE when V[x] > 0xF (R143). -/
def execSkp (x : Reg) (s : State) : Host.Outcome State Fault Refusal :=
  match s.keyAt (s.reg x) with
  | some pressed => .next (s.skipIf pressed)
  | none => .next (s.raise .keyRange (.skp x) none)

/-- SKNP Vx (R142): skip if the key is not pressed, or KEY_RANGE when V[x] > 0xF (R143). -/
def execSknp (x : Reg) (s : State) : Host.Outcome State Fault Refusal :=
  match s.keyAt (s.reg x) with
  | some pressed => .next (s.skipIf (!pressed))
  | none => .next (s.raise .keyRange (.sknp x) none)

/-- LD Vx, K (R145): the least pressed key, else PC is rewound to this same instruction. -/
def execLdVxK (x : Reg) (s : State) : Host.Outcome State Fault Refusal :=
  .next (match s.leastKey with
    | some k => s.setReg x (BitVec.ofNat 8 k.val)
    | none => s.setPC (s.PC - 2))

end Sys2Proof.Machine
end

