-- ==== Sys2Proof/Machine/Timer.lean ====
section
/-! DEFINITION. Timer instructions (spec 44_keypad_timer_memory.md, R144, R146, R147). -/

namespace Sys2Proof.Machine

/-- LD Vx, DT (R144). -/
def execLdVxDT (x : Reg) (s : State) : Host.Outcome State Fault Refusal :=
  .next (s.setReg x s.DT)

/-- LD DT, Vx (R146). -/
def execLdDTVx (x : Reg) (s : State) : Host.Outcome State Fault Refusal :=
  .next { s with DT := s.reg x }

/-- LD ST, Vx (R147). -/
def execLdSTVx (x : Reg) (s : State) : Host.Outcome State Fault Refusal :=
  .next { s with ST := s.reg x }

end Sys2Proof.Machine
end

