-- ==== Sys2Proof/Machine/Engine.lean ====
section
/-! DEFINITION. The engine: the fetch (spec R55) and the Step (R71). The tick sequencer around it is in
`Machine/Tick.lean`. -/

namespace Sys2Proof.Machine

/-- What `Fetch` gives: a word, or the address of a MEM_BOUNDS fault (R55). -/
inductive Fetched where
  | word (w : Word)
  | outside (addr : Nat)
  deriving DecidableEq, Repr

/-- `Fetch(a)` at a = PC (R55): both bytes must lie in 0x000..0xFFF; big-endian. -/
def fetch (s : State) : Fetched :=
  if s.PC.toNat > 0xFFF then .outside s.PC.toNat
  else if s.PC.toNat = 0xFFF then .outside 0x1000
  else .word (wordOfBytes (s.byteAt s.PC.toNat) (s.byteAt (s.PC.toNat + 1)))

/-- Execution of an UNIMPL word on the advanced state: one diagnostic, "no other write" (R77). -/
def execUnimpl (w : Word) (s : State) : Host.Outcome State Fault Refusal :=
  .next (s.diag .unimpl w none)

/-- `Step()` of R71: a halted core does nothing; else fetch, advance, decode and execute. -/
def engineStep (s : State) : Host.Outcome State Fault Refusal :=
  match s.run with
  | .faulted _ => .next s
  | .running =>
    match fetch s with
    | .outside a => .next (s.takeFault { cause := .memBounds, pc := s.PC, word := none, addr := some a })
    | .word w =>
      match decodeWord w with
      | .unimpl _ => execUnimpl w s.advance
      | .instr i => exec i s.advance

end Sys2Proof.Machine
end

