-- ==== Sys2Proof/WellFormed.lean ====
section
/-! DEFINITION. Well-formedness. Every bound of an instruction's operands (R70: a register index or row
count below 16, an 8-bit immediate, a 12-bit address) is carried by its operand's type, so every term of
`Instr` is well formed and no check is left to make on one. What the types leave to check are the two
arguments of RESET: the configuration (R5) and the ROM (R182). -/

namespace Sys2Proof

/-- Every instruction is well formed: its operands' types hold exactly what its encoding admits. -/
def Instr.wellFormed : Instr → Bool
  | .cls | .ret => true
  | .jp _ | .call _ | .ldI _ | .jpV0 _ => true
  | .seImm _ _ | .sneImm _ _ | .ldImm _ _ | .addImm _ _ | .rnd _ _ => true
  | .seReg _ _ | .sneReg _ _ | .ldReg _ _ | .orReg _ _ | .andReg _ _ | .xorReg _ _ => true
  | .addReg _ _ | .sub _ _ | .shr _ _ | .subn _ _ | .shl _ _ => true
  | .drw _ _ _ => true
  | .skp _ | .sknp _ => true
  | .ldVxDT _ | .ldVxK _ | .ldDTVx _ | .ldSTVx _ => true
  | .addI _ | .ldF _ | .ldB _ | .ldMemVx _ | .ldVxMem _ => true

/-- R5: `cyclesPerTick` is an "integer >= 1". -/
def Cfg.wellFormed (c : Cfg) : Bool := decide (1 ≤ c.cyclesPerTick)

/-- R182: a ROM of more than 3584 bytes is refused. -/
def romWellFormed (rom : List Byte) : Bool := decide (rom.length ≤ Config.romMax)

end Sys2Proof
end

