-- ==== Sys2Proof/Machine/Tick.lean ====
section
/-! DEFINITION. RESET (spec R180), the host's commands (R43), the tick sequencer (R172) as one Step at a
time, TICK as one whole command, and the core's outputs (R42). -/

namespace Sys2Proof.Machine

/-! ## RESET (R180 to R182) -/

/-- RESET(cfg, rom): the core as constructed, or a refusal (R182; log entry 9). -/
def construct (cfg : Cfg) (rom : List Byte) : Host.Outcome State Fault Refusal :=
  if romWellFormed rom then
    if cfg.wellFormed then
      .next { State.reset with cfg := cfg, mem := Memory.image cfg.font Config.programStart rom }
    else .refused .badConfig
  else .refused .romTooLong

/-! ## The tick, one Step at a time (R172; log entry 4) -/

/-- What follows a Step of a tick (R172): a fault ends the tick at once, with no decrement (R167); else
the tick goes on, or it completes after its last Step and the timers are decremented once (R173). -/
def endStep (s : State) : State :=
  match s.run with
  | .faulted _ => { s with tickStep := 0 }
  | .running =>
    if s.tickStep + 1 < s.cfg.cyclesPerTick then { s with tickStep := s.tickStep + 1 }
    else { s.decTimers with tickStep := 0 }

/-- The next Step of the current tick. -/
def tickStepOnce (s : State) : Host.Outcome State Fault Refusal := onNext endStep (engineStep s)

/-- TICK(keys_in) begins: a halted core does nothing; else the keypad is latched before the first Step
(R172, R176). -/
def beginTick (keys : Keypad) (s : State) : Host.Outcome State Fault Refusal :=
  match s.run with
  | .faulted _ => .next s
  | .running => tickStepOnce { s with key := keys }

/-- At a tick boundary the host acts (R43): its next listed command, or, where none is listed, a TICK
with a free key vector (log entry 4). A halted core and no command: nothing happens (R167). -/
def hostStep (s : State) : Host.Outcome State Fault Refusal :=
  match s.host with
  | .ackRedraw :: rest => .next { s with redraw := false, host := rest }
  | .reset cfg rom :: rest =>
    onNext (fun t => { t with host := rest, rndIn := s.rndIn, draws := s.draws }) (construct cfg rom)
  | .tick keys :: rest => beginTick keys { s with host := rest }
  | [] =>
    match s.run with
    | .faulted _ => .next s
    | .running => beginTick (Config.hostKeys s.draws) { s with draws := s.draws + 1 }

/-- The state is at a tick boundary: no tick is under way (R43, R64). A halted core always is (R167). -/
def State.atBoundary (s : State) : Bool := decide (s.tickStep = 0) || decide (s.run ≠ .running)

/-- One step of the machine: inside a tick its next Step, at a tick boundary the host's move. -/
def sequencerStep (s : State) : Host.Outcome State Fault Refusal :=
  if s.atBoundary then hostStep s else tickStepOnce s

/-! ## TICK as one command (R172) -/

/-- `repeat n times: Step(); if run != Running then return`, then the decrement (R172). -/
def tickLoop : Nat → State → Host.Outcome State Fault Refusal
  | 0, s => .next s.decTimers
  | n + 1, s =>
    match engineStep s with
    | .next t =>
      match t.run with
      | .faulted _ => .next t
      | .running => tickLoop n t
    | .fault r => .fault r
    | .refused r => .refused r

/-- TICK(keys_in) as R172 writes it, from one tick boundary to the next. -/
def tick (keys : Keypad) (s : State) : Host.Outcome State Fault Refusal :=
  match s.run with
  | .faulted _ => .next s
  | .running => tickLoop s.cfg.cyclesPerTick { s with key := keys }

/-! ## Outputs (R36, R42) -/

/-- The numeric cause code of a diagnostic (R161). -/
def DiagCause.code : DiagCause → Nat
  | .unimpl => 1
  | .wprot => 2

/-- The numeric cause code of a fatal fault (R161). -/
def FaultCause.code : FaultCause → Nat
  | .stackOverflow => 3
  | .stackUnderflow => 4
  | .memBounds => 5
  | .keyRange => 6

namespace State

/-- `sound_active` = (ST != 0) (R36). -/
def soundActive (s : State) : Bool := decide (s.ST ≠ 0)

/-- `running` = (run = Running) (R42, R177). -/
def running (s : State) : Bool := decide (s.run = .running)

/-- `fault_out`: the fields of `Faulted(...)`, or none (R42). -/
def faultOut (s : State) : Option FaultRecord :=
  match s.run with
  | .running => none
  | .faulted r => some r

/-- The cause code of the core's fault, 0 (NONE) while it runs (R161). -/
def faultCode (s : State) : Nat := (s.faultOut.map fun r => r.cause.code).getD 0

/-- `beep`, the result of the last TICK, read at the tick boundary after it (R172, R174): true when the
tick completed with ST != 0 after its decrement, false when a fault ended it or the core was halted.
ST does not change between ticks (R173), so it is a function of the state (log entry 5). -/
def beep (s : State) : Bool := s.running && s.soundActive

end State

/-- The outputs of R42. -/
structure Outputs where
  fbOut : Framebuffer
  redrawOut : Bool
  soundActive : Bool
  beep : Bool
  running : Bool
  faultOut : Option FaultRecord
  diagOut : List DiagRecord
  deriving DecidableEq, Repr

/-- What the host reads at a tick boundary (R42). -/
def outputs (s : State) : Outputs where
  fbOut := s.fb
  redrawOut := s.redraw
  soundActive := s.soundActive
  beep := s.beep
  running := s.running
  faultOut := s.faultOut
  diagOut := s.diaglog

/-! ## Placing an instruction where the next step fetches it -/

/-- Listed commands that come before the host's next TICK. -/
def beforeTick : List HostCmd → List HostCmd
  | .tick keys :: rest => .tick keys :: rest
  | _ :: rest => beforeTick rest
  | [] => []

/-- The address the word is placed at: PC, or the program start where no word can be fetched at PC. -/
def State.fetchAddr (s : State) : Word := if s.PC.toNat < 0xFFF then s.PC else 0x200

/-- The state with a word placed where the next step fetches (log entry 11). What the fetch needs
beside the two bytes is set too: a running core, a PC inside memory, and no host command other than
TICK first in line. In a state that has these already nothing but the two bytes changes. -/
def State.placeWord (s : State) (w : Word) : State :=
  let a := s.fetchAddr
  let t := { s with PC := a, run := .running, host := if s.tickStep = 0 then beforeTick s.host else s.host }
  (t.pokeByte a.toNat (hiByte w)).pokeByte (a.toNat + 1) (loByte w)

end Sys2Proof.Machine
end

