-- ==== Sys2Proof/Machine/Step.lean ====
section
/-! DEFINITION. The machine's step: a call of the tick sequencer (spec R172), which runs the engine's
Step (R71). -/

namespace Sys2Proof.Machine

/-- One step of the machine. -/
def step (s : State) : Host.Outcome State Fault Refusal := sequencerStep s

/-- The state with an instruction's word, numbered as spec/opcode_table.json numbers it, stored where
`step` fetches its next instruction. Bits above `nbits` are 0. -/
def State.withFetchWord (s : State) (nbits w : Nat) : State :=
  s.placeWord (BitVec.ofNat 16 (w % 2 ^ nbits))

end Sys2Proof.Machine
end

