-- ==== Sys2Proof/Safety.lean ====
section
/-! DEFINITION. The terms claims use: frames, a good run, and the machine's invariant. -/

namespace Sys2Proof.Machine

/-! ## Frames -/

/-- The components of the state. -/
inductive Component where
  | mem | V | I | PC | stack | SP | DT | ST | key | fb | redraw | run | diaglog | cfg
  | tickStep | host | rndIn | draws
  deriving DecidableEq, Repr

/-- A component is the same in two states. For memory: every address reads the same byte. For the
registers: every register reads the same byte. -/
def Component.Same : Component → State → State → Prop
  | .mem, s, t => ∀ a, t.byteAt a = s.byteAt a
  | .V, s, t => ∀ k, t.reg k = s.reg k
  | .I, s, t => t.I = s.I
  | .PC, s, t => t.PC = s.PC
  | .stack, s, t => t.stack = s.stack
  | .SP, s, t => t.SP = s.SP
  | .DT, s, t => t.DT = s.DT
  | .ST, s, t => t.ST = s.ST
  | .key, s, t => t.key = s.key
  | .fb, s, t => t.fb = s.fb
  | .redraw, s, t => t.redraw = s.redraw
  | .run, s, t => t.run = s.run
  | .diaglog, s, t => t.diaglog = s.diaglog
  | .cfg, s, t => t.cfg = s.cfg
  | .tickStep, s, t => t.tickStep = s.tickStep
  | .host, s, t => t.host = s.host
  | .rndIn, s, t => t.rndIn = s.rndIn
  | .draws, s, t => t.draws = s.draws

/-- From s to t every component is unchanged except the listed ones. -/
def UnchangedBut (cs : List Component) (s t : State) : Prop := ∀ c, c ∉ cs → c.Same s t

/-! ## A good run -/

/-- "The faulted state is never a good final state: a model treats it as a failure of the run" (R167). -/
abbrev State.Good (s : State) : Prop := s.run = .running

/-- An outcome is a next state that holds P. -/
def Completes (o : Host.Outcome State Fault Refusal) (P : State → Prop) : Prop :=
  ∃ t, o = .next t ∧ P t

/-! ## The invariant -/

/-- What every step of the machine keeps. -/
structure State.Inv (s : State) : Prop where
  /-- memory is in its canonical form -/
  memory : Memory.wf s.cfg.font s.mem
  /-- R5: `cyclesPerTick` is an integer >= 1 -/
  cycles : 1 ≤ s.cfg.cyclesPerTick
  /-- R172: a tick under way has run fewer than `cyclesPerTick` Steps -/
  inTick : s.tickStep < s.cfg.cyclesPerTick
  /-- R167: a fault ends its tick at once -/
  faultEndsTick : s.run ≠ .running → s.tickStep = 0
  /-- R51, R54: the protected part of the font and reserved region holds its reset contents -/
  protectedBytes : ∀ a, a < Config.programStart → a ≤ s.cfg.wpTop.toNat →
    s.byteAt a = Memory.unlisted s.cfg.font a
  /-- R92: a return address in use is PC_i + 2 of a CALL that was fetched, so it lies in 0x0002..0x1000 -/
  returnAddresses : ∀ j (h : j < 16), j < s.SP.val →
    2 ≤ (s.stack[j]'h).toNat ∧ (s.stack[j]'h).toNat ≤ 0x1000
  /-- R71, R90, R99: PC never passes 0x10FE, so its 16-bit reduction never takes effect -/
  pcRange : s.PC.toNat ≤ 0x10FE

end Sys2Proof.Machine
end

