-- ==== Sys2Proof/Certificates/Slice0/Obligations.lean ====
section
/-! DEFINITION. The statements for the provers. Each docstring names the rule or section of the spec the
statement formalises. "Completes o P" says that the outcome o is a next state that holds P; "UnchangedBut cs
s t" says that from s to t every component of the state but those of cs is unchanged, all of memory read
byte by byte. `exec i s` is applied to the state after the common fetch, whose PC is PC_i + 2 (R71). -/

namespace Sys2Proof.Claims

open Sys2Proof.Machine

/-- The bits of a word its instruction's decoding keeps: all, but for the ignored nibble of `5xyN` and
`9xyN` (R76). -/
def keptBits : Instr → Word
  | .seReg _ _ | .sneReg _ _ => 0xFFF0
  | _ => 0xFFFF

/-- R77's list of UNIMPL words, on the word as a number. -/
def UnimplWord (n : Nat) : Prop :=
  (n ≤ 0x0FFF ∧ n ≠ 0x00E0 ∧ n ≠ 0x00EE) ∨
  (n / 4096 = 0x8 ∧ n % 16 ∈ [0x8, 0x9, 0xA, 0xB, 0xC, 0xD, 0xF]) ∨
  (n / 4096 = 0xE ∧ n % 256 ∉ [0x9E, 0xA1]) ∨
  (n / 4096 = 0xF ∧ n % 256 ∉ [0x07, 0x0A, 0x15, 0x18, 0x1E, 0x29, 0x33, 0x55, 0x65])

/-- The word of value n, and no other, decodes to instruction i (30_encoding.md section 4). -/
def DecodesExactly (n : Nat) (i : Instr) : Prop := ∀ w : Word, decodeWord w = .instr i ↔ w.toNat = n

/-- The word at PC, big-endian (R55, R56). -/
def wordAtPC (s : State) : Word := s.byteAt s.PC.toNat ++ s.byteAt (s.PC.toNat + 1)

/-- The framebuffer cells the n-row sprite at I lights or toggles when it is drawn at (x0, y0): bit 7 - col
of the byte at I + row, placed as R132 (WRAP) or R133 (CLIP) says. -/
def SpriteCovers (s : State) (x0 y0 : Byte) (n : Nat) (c : Fin 64) (r : Fin 32) : Prop :=
  ∃ row, row < n ∧ ∃ col, col < 8 ∧ (s.byteAt (s.I.toNat + row)).getLsbD (7 - col) = true ∧
    match s.cfg.spriteWrap with
    | .wrap => c.val = (x0.toNat + col) % 64 ∧ r.val = (y0.toNat + row) % 32
    | .clip => c.val = x0.toNat % 64 + col ∧ r.val = y0.toNat % 32 + row

/-- The instructions that may write a general register (10_state.md section 2, R21 and R22). -/
def WritesV : Instr → Bool
  | .ldImm _ _ | .addImm _ _ | .ldReg _ _ | .orReg _ _ | .andReg _ _ | .xorReg _ _ => true
  | .addReg _ _ | .sub _ _ | .shr _ _ | .subn _ _ | .shl _ _ | .rnd _ _ => true
  | .drw _ _ _ | .ldVxDT _ | .ldVxK _ | .ldVxMem _ => true
  | _ => false

/-- The instructions that may overwrite the advanced PC without faulting (10_state.md section 3, R25). -/
def WritesPC : Instr → Bool
  | .ret | .jp _ | .call _ | .jpV0 _ => true
  | .seImm _ _ | .sneImm _ _ | .seReg _ _ | .sneReg _ _ | .skp _ | .sknp _ | .ldVxK _ => true
  | _ => false

/-- The state a fatal fault of instruction i leaves (R167), from the state after the common fetch. -/
def faultState (s : State) (i : Instr) (cause : FaultCause) (addr : Option Nat) : State :=
  { s with PC := s.PC - 2, run := .faulted ⟨cause, s.PC - 2, some (encode i), addr⟩ }

/-- The data range of an instruction that leaves the memory (R59): the number of bytes it moves at I. -/
def rangeBytes : Instr → Nat
  | .drw _ _ n => n.val
  | .ldB _ => 3
  | .ldMemVx x | .ldVxMem x => x.val + 1
  | _ => 0

/-- The fatal fault a running core's Step must raise, by R169's order of checks: fetch bounds, then the
decoded instruction's own check. -/
def expectedFault (s : State) : Option FaultRecord :=
  if 0xFFE < s.PC.toNat then some ⟨.memBounds, s.PC, none, some (max s.PC.toNat 0x1000)⟩
  else
    match decodeWord (wordAtPC s) with
    | .unimpl _ => none
    | .instr .ret => if s.SP = 0 then some ⟨.stackUnderflow, s.PC, some (wordAtPC s), none⟩ else none
    | .instr (.call _) => if s.SP = 16 then some ⟨.stackOverflow, s.PC, some (wordAtPC s), none⟩ else none
    | .instr (.skp x) =>
      if 0xF < (s.reg x).toNat then some ⟨.keyRange, s.PC, some (wordAtPC s), none⟩ else none
    | .instr (.sknp x) =>
      if 0xF < (s.reg x).toNat then some ⟨.keyRange, s.PC, some (wordAtPC s), none⟩ else none
    | .instr i =>
      if 1 ≤ rangeBytes i ∧ 0x1000 < s.I.toNat + rangeBytes i then
        some ⟨.memBounds, s.PC, some (wordAtPC s), some (max s.I.toNat 0x1000)⟩
      else none

end Sys2Proof.Claims

section

open Sys2Proof Sys2Proof.Machine Sys2Proof.Claims

/-! ## Encoding (30_encoding.md) -/

/-- The decoder reads back every instruction from its encoding, with every operand at every value, as a word
and as two bytes before any others (30_encoding.md sections 1 and 4). -/
def Obligations.DecodeOfEncodeIsTheInstr : Prop :=
  ∀ i : Instr, i.wellFormed = true →
    decodeWord (encode i) = .instr i ∧ ∀ rest, decodeBytes (encodeBytes i ++ rest) = .instr i rest

/-- A word that decodes is its instruction's encoding, but for the nibble `5xyN` and `9xyN` ignore
(30_encoding.md section 4, R76). -/
def Obligations.EncodeOfDecodeIsTheWord : Prop :=
  ∀ (w : Word) (i : Instr), decodeWord w = .instr i → w &&& keptBits i = encode i

/-- "A word matches a row when (w & mask) = match. Every 16-bit word matches at most one row. A word that
matches none is UNIMPL." (30_encoding.md section 4) -/
def Obligations.DecodeAgreesWithOpcodeMap : Prop :=
  ∀ w : Word, (opcodeTable.filter (·.matchesWord w)).map (·.mnemonic) =
    match decodeWord w with
    | .instr i => [i.mnemonic]
    | .unimpl _ => []

/-- The decode tree by family (30_encoding.md sections 2 and 4): family 0 compares the whole word, family 8 selects
by the bottom nibble, and the twelve families 1 to 7, 9 and A to D are selected by the top nibble alone. That family
A is LD I, nnn is the spec's own decision D18 (log entry 10). -/
def Obligations.DecodeTreeByFamily : Prop :=
  ∀ w : Word,
    (w.toNat / 4096 = 0x0 → decodeWord w =
      if w = 0x00E0 then .instr .cls else if w = 0x00EE then .instr .ret else .unimpl .family0) ∧
    (w.toNat / 4096 = 0x8 → ∃ x y : Reg, x.val = w.toNat / 256 % 16 ∧ y.val = w.toNat / 16 % 16 ∧
      (w.toNat % 16 = 0x0 → decodeWord w = .instr (.ldReg x y)) ∧
      (w.toNat % 16 = 0x1 → decodeWord w = .instr (.orReg x y)) ∧
      (w.toNat % 16 = 0x2 → decodeWord w = .instr (.andReg x y)) ∧
      (w.toNat % 16 = 0x3 → decodeWord w = .instr (.xorReg x y)) ∧
      (w.toNat % 16 = 0x4 → decodeWord w = .instr (.addReg x y)) ∧
      (w.toNat % 16 = 0x5 → decodeWord w = .instr (.sub x y)) ∧
      (w.toNat % 16 = 0x6 → decodeWord w = .instr (.shr x y)) ∧
      (w.toNat % 16 = 0x7 → decodeWord w = .instr (.subn x y)) ∧
      (w.toNat % 16 = 0xE → decodeWord w = .instr (.shl x y)) ∧
      (w.toNat % 16 ∈ [0x8, 0x9, 0xA, 0xB, 0xC, 0xD, 0xF] → decodeWord w = .unimpl .family8)) ∧
    (∃ (x y n : Reg) (kk : Byte) (nnn : BitVec 12),
      x.val = w.toNat / 256 % 16 ∧ y.val = w.toNat / 16 % 16 ∧ n.val = w.toNat % 16 ∧
      kk.toNat = w.toNat % 256 ∧ nnn.toNat = w.toNat % 4096 ∧
      (w.toNat / 4096 = 0x1 → decodeWord w = .instr (.jp nnn)) ∧
      (w.toNat / 4096 = 0x2 → decodeWord w = .instr (.call nnn)) ∧
      (w.toNat / 4096 = 0x3 → decodeWord w = .instr (.seImm x kk)) ∧
      (w.toNat / 4096 = 0x4 → decodeWord w = .instr (.sneImm x kk)) ∧
      (w.toNat / 4096 = 0x5 → decodeWord w = .instr (.seReg x y)) ∧
      (w.toNat / 4096 = 0x6 → decodeWord w = .instr (.ldImm x kk)) ∧
      (w.toNat / 4096 = 0x7 → decodeWord w = .instr (.addImm x kk)) ∧
      (w.toNat / 4096 = 0x9 → decodeWord w = .instr (.sneReg x y)) ∧
      (w.toNat / 4096 = 0xA → decodeWord w = .instr (.ldI nnn)) ∧
      (w.toNat / 4096 = 0xB → decodeWord w = .instr (.jpV0 nnn)) ∧
      (w.toNat / 4096 = 0xC → decodeWord w = .instr (.rnd x kk)) ∧
      (w.toNat / 4096 = 0xD → decodeWord w = .instr (.drw x y n)))

/-- R77: the decode result is UNIMPL for exactly the listed words, and a running core that fetches one emits
one diagnostic and does nothing else but advance. -/
def Obligations.UnimplWordIsDiagnosedNoOp : Prop :=
  (∀ w : Word, (∃ f, decodeWord w = .unimpl f) ↔ UnimplWord w.toNat) ∧
  ∀ s : State, s.run = .running → s.PC.toNat ≤ 0xFFE → UnimplWord (wordAtPC s).toNat →
    engineStep s = .next { s with
      PC := s.PC + 2, diaglog := s.diaglog ++ [⟨.unimpl, s.PC, wordAtPC s, none⟩] }

/-- Words written out from the opcode map decode to the instructions they stand for, one of each of the sixteen
values of the top nibble (30_encoding.md section 4). -/
def Obligations.SampleWordsDecode : Prop :=
  decodeWord 0x00E0 = .instr .cls ∧ decodeWord 0x1234 = .instr (.jp 0x234) ∧
  decodeWord 0x2300 = .instr (.call 0x300) ∧ decodeWord 0x3A05 = .instr (.seImm 10 5) ∧
  decodeWord 0x4305 = .instr (.sneImm 3 5) ∧ decodeWord 0x5120 = .instr (.seReg 1 2) ∧
  decodeWord 0x6A05 = .instr (.ldImm 10 5) ∧ decodeWord 0x7A03 = .instr (.addImm 10 3) ∧
  decodeWord 0x80F4 = .instr (.addReg 0 15) ∧ decodeWord 0x912F = .instr (.sneReg 1 2) ∧
  decodeWord 0xA300 = .instr (.ldI 0x300) ∧ decodeWord 0xB300 = .instr (.jpV0 0x300) ∧
  decodeWord 0xC30F = .instr (.rnd 3 0x0F) ∧ decodeWord 0xD125 = .instr (.drw 1 2 5) ∧
  decodeWord 0xE5A1 = .instr (.sknp 5) ∧ decodeWord 0xF265 = .instr (.ldVxMem 2)

/-! ## Fetch and Step (30_encoding.md R71, 20_memory.md R55) -/

/-- Fetch reads two bytes, the lower address most significant, or names the address outside the memory. The
bounds checks are the spec's own decision D2 (20_memory.md section 2). -/
def Obligations.FetchIsBigEndianInBounds : Prop :=
  ∀ s : State,
    (s.PC.toNat ≤ 0xFFE → fetch s = .word (wordAtPC s)) ∧
    (s.PC.toNat = 0xFFF → fetch s = .outside 0x1000) ∧
    (0xFFF < s.PC.toNat → fetch s = .outside s.PC.toNat)

/-- When the bytes at PC of a running core decode to an instruction, the engine's Step is exec of it on the
advanced state, and the machine's step adds the tick around it: mid-tick `endStep` alone; at a tick boundary
the key vector of the host's TICK is latched first, or, where no command is listed, a free one. The sequencing
of Steps into ticks by State.tickStep and State.host is the model's choice (log entry 4); the 16-bit advance
is decision D17. -/
def Obligations.StepRunsTheDecodedInstr : Prop :=
  ∀ (s : State) (i : Instr), s.run = .running → s.PC.toNat ≤ 0xFFE → decodeWord (wordAtPC s) = .instr i →
    engineStep s = exec i { s with PC := s.PC + 2 } ∧
    (s.tickStep ≠ 0 → step s = onNext endStep (exec i { s with PC := s.PC + 2 })) ∧
    (∀ keys rest, s.tickStep = 0 → s.host = .tick keys :: rest →
      step s = onNext endStep (exec i { s with PC := s.PC + 2, key := keys, host := rest })) ∧
    (s.tickStep = 0 → s.host = [] → step s = onNext endStep
      (exec i { s with PC := s.PC + 2, key := Config.hostKeys s.draws, draws := s.draws + 1 }))

/-- What follows exec in a step: a fault ends the tick with no decrement, a tick that is not over goes on, a
completed tick is left at the boundary (60_exceptions.md section 4; the counter tickStep is the model's,
log entry 4). -/
def Obligations.EndStepMovesTheTickOn : Prop :=
  ∀ u : State,
    (u.run ≠ .running → endStep u = { u with tickStep := 0 }) ∧
    (u.run = .running → u.tickStep + 1 < u.cfg.cyclesPerTick →
      endStep u = { u with tickStep := u.tickStep + 1 }) ∧
    (u.run = .running → u.cfg.cyclesPerTick ≤ u.tickStep + 1 →
      (endStep u).tickStep = 0 ∧ UnchangedBut [.DT, .ST, .tickStep] u (endStep u))

/-- A word placed with withFetchWord is what the next step fetches and runs: at a tick boundary no command or a TICK
comes first, and step is the engine's Step on a state u that fetches the word, followed by endStep, where u is the
placed state itself mid-tick and else differs from it in the latched keys, the commands left and the free values
taken alone. In a state that could fetch already only the two bytes change. The loading convention is the model's
(log entry 11), and so are the commands listed in State.host (log entry 4). -/
def Obligations.WithFetchWordIsFetched : Prop :=
  ∀ (s t : State) (w : Word), t = s.withFetchWord 16 w.toNat →
    fetch t = .word w ∧ t.run = .running ∧
    (t.tickStep = 0 → t.host = [] ∨ ∃ keys rest, t.host = .tick keys :: rest) ∧
    (∃ u : State, (∃ keys host draws, u = { t with key := keys, host := host, draws := draws }) ∧
      (t.tickStep ≠ 0 → u = t) ∧ fetch u = .word w ∧ step t = onNext endStep (engineStep u) ∧
      ∀ i, decodeWord w = .instr i → step t = onNext endStep (exec i { u with PC := u.PC + 2 })) ∧
    (s.run = .running → s.PC.toNat ≤ 0xFFE →
      s.tickStep ≠ 0 ∨ s.host = [] ∨ (∃ keys rest, s.host = .tick keys :: rest) →
      UnchangedBut [.mem] s t ∧ ∀ a, a ≠ s.PC.toNat → a ≠ s.PC.toNat + 1 → t.byteAt a = s.byteAt a)

/-- A byte written by an instruction is what the next fetch sees (20_memory.md section 4, decision D25). -/
def Obligations.StoreIsSeenByTheNextFetch : Prop :=
  ∀ (s : State) (i : Instr) (a : Nat) (v : Byte), s.PC.toNat ≤ 0xFFE → s.cfg.wpTop.toNat < a →
    fetch (s.memWrite i a v) =
      .word ((if a = s.PC.toNat then v else s.byteAt s.PC.toNat) ++
        (if a = s.PC.toNat + 1 then v else s.byteAt (s.PC.toNat + 1)))

/-! ## Faults (60_exceptions.md) -/

/-- A running core's Step always answers a next state. It faults exactly when R169's order of checks says so;
the fault is precise: every write of the step is discarded, PC holds PC_i, and run holds the cause, PC_i, the
word and the address. The causes, the precision and the order are the spec's own decisions (60_exceptions.md
sections 1 and 2; D2, D5, D6, D14, D22, D33). -/
def Obligations.StepFaultsPreciselyWhenExpected : Prop :=
  ∀ s : State, s.run = .running →
    Completes (engineStep s) fun t =>
      match expectedFault s with
      | some r => t = { s with run := .faulted r }
      | none => t.run = .running

/-- A halted core: every Step and every TICK has no effect (60_exceptions.md section 2, decision D22). -/
def Obligations.HaltedCoreDoesNothing : Prop :=
  ∀ (s : State) (r : FaultRecord), s.run = .faulted r →
    engineStep s = .next s ∧ (∀ keys, tick keys s = .next s) ∧
    (s.host = [] → step s = .next s) ∧
    (∀ keys rest, s.host = .tick keys :: rest → step s = .next { s with host := rest })

/-- The machine never stops: a step answers a next state unless the host's RESET is refused, which happens
only at a tick boundary, for a ROM of more than 3584 bytes (D31) or, the model's choice (log entry 9), for
cyclesPerTick = 0. -/
def Obligations.StepAnswersNextUnlessResetRefused : Prop :=
  ∀ s : State,
    (∃ t, step s = .next t) ∨
    ∃ cfg rom rest, s.host = .reset cfg rom :: rest ∧ (s.tickStep = 0 ∨ s.run ≠ .running) ∧
      ((0xE00 < rom.length ∧ step s = .refused .romTooLong) ∨
       (cfg.cyclesPerTick = 0 ∧ step s = .refused .badConfig))

/-- The data range of Dxyn, Fx33, Fx55 and Fx65 is checked before any byte moves: when its last address is
above 0xFFF the instruction faults with the first address above 0xFFF and does nothing else
(20_memory.md R59, decisions D2 and D3). -/
def Obligations.DataRangeFaultsBeforeAnyAccess : Prop :=
  ∀ (s : State) (i : Instr), 1 ≤ rangeBytes i → 0x1000 < s.I.toNat + rangeBytes i →
    exec i s = .next (faultState s i .memBounds (some (max s.I.toNat 0x1000)))

/-- The diagnostic log only grows; every record a Step appends holds PC_i, and a Step that faults appends
none (10_state.md section 6; 60_exceptions.md sections 1 and 2; decision D23). -/
def Obligations.StepAppendsDiagnosticsOfItsOwnPC : Prop :=
  ∀ s t : State, engineStep s = .next t →
    ∃ ds, t.diaglog = s.diaglog ++ ds ∧ (∀ d ∈ ds, d.pc = s.PC) ∧ (t.run ≠ s.run → ds = [])

/-- R163: a write at or below WP_TOP changes no memory, emits one WPROT diagnostic and lets the instruction go
on; no instruction changes a byte there; fetches and data reads are never protection violations: only a Step of
Fx33 or Fx55 appends a WPROT record. -/
def Obligations.ProtectedWriteIsDroppedWithDiagnostic : Prop :=
  (∀ (s : State) (i : Instr) (a : Nat) (v : Byte), a ≤ s.cfg.wpTop.toNat →
    s.memWrite i a v =
      { s with diaglog := s.diaglog ++ [⟨.wprot, s.PC - 2, encode i, some a⟩] }) ∧
  (∀ (i : Instr) (s t : State) (a : Nat), exec i s = .next t → a ≤ s.cfg.wpTop.toNat →
    t.byteAt a = s.byteAt a) ∧
  (∀ (i : Instr) (s t : State), exec i s = .next t → (∀ x, i ≠ .ldB x ∧ i ≠ .ldMemVx x) →
    t.diaglog = s.diaglog) ∧
  (∀ (s t : State) (ds : List DiagRecord), engineStep s = .next t → t.diaglog = s.diaglog ++ ds →
    (∃ d ∈ ds, d.cause = .wprot) →
    ∃ x, decodeWord (wordAtPC s) = .instr (.ldB x) ∨ decodeWord (wordAtPC s) = .instr (.ldMemVx x))

/-! ## Whole-machine rules (10_state.md) -/

/-- Which instructions may change each component, over all instructions (10_state.md sections 2 to 6, the
"written by" lists; R58 for memory). -/
def Obligations.OnlyListedInstrsWriteEachComponent : Prop :=
  ∀ (i : Instr) (s t : State), exec i s = .next t →
    t.key = s.key ∧ t.cfg = s.cfg ∧ t.tickStep = s.tickStep ∧ t.host = s.host ∧
    (WritesV i = false → ∀ k, t.reg k = s.reg k) ∧
    (WritesPC i = false → s.run = .running → t.run = .running → t.PC = s.PC) ∧
    ((∀ n, i ≠ .call n) → t.stack = s.stack) ∧
    ((∀ n, i ≠ .call n) → i ≠ .ret → t.SP = s.SP) ∧
    ((∀ x, i ≠ .ldDTVx x) → t.DT = s.DT) ∧
    ((∀ x, i ≠ .ldSTVx x) → t.ST = s.ST) ∧
    (i ≠ .cls → (∀ x y n, i ≠ .drw x y n) → t.fb = s.fb ∧ t.redraw = s.redraw) ∧
    (s.redraw = true → t.redraw = true) ∧
    ((∀ x, i ≠ .ldB x ∧ i ≠ .ldMemVx x) → ∀ a, t.byteAt a = s.byteAt a) ∧
    ((∀ n, i ≠ .ldI n) → (∀ x, i ≠ .addI x ∧ i ≠ .ldF x) →
      (s.cfg.loadStoreQuirk = true ∨ ∀ x, i ≠ .ldMemVx x ∧ i ≠ .ldVxMem x) → t.I = s.I)

/-- No instruction reads redraw, diaglog or ST: two states that differ in these alone stay so (10_state.md
sections 4 to 6, R37). -/
def Obligations.HostOnlyStateIsNotObserved : Prop :=
  ∀ (i : Instr) (s t : State) (b : Bool) (l : List DiagRecord) (v : Byte), exec i s = .next t →
    Completes (exec i { s with redraw := b, diaglog := l, ST := v }) fun t' =>
      UnchangedBut [.redraw, .diaglog, .ST] t t'

/-- Every step of the machine, the host's moves among them, keeps the invariant (20_memory.md R51;
41_control_flow.md R92 on return addresses; 60_exceptions.md sections 2 and 4). -/
def Obligations.EveryStepKeepsTheInvariant : Prop :=
  ∀ s t : State, s.Inv → step s = .next t → t.Inv

/-- The invariant holds after reset. -/
def Obligations.ResetMeetsTheInvariant : Prop := State.reset.Inv

/-! ## Reset (70_reset_and_hazards.md) -/

/-- What RESET leaves in every component of the state (70_reset_and_hazards.md section 1): memory is the font at
0x000..0x04F, zero up to 0x1FF, then the ROM bytes and zero after them. The values of V, stack, SP, PC and memory are
the source's; those of I, DT, ST, key, fb, redraw, run and diaglog are the spec's own decisions D20, D22 and D23 (log
entry 8), and that a ROM too long is refused is D31. That State.reset is RESET with the default configuration and the
empty ROM is the model's choice (log entries 2 and 11), and so are the tick's counter and the host's side of the state
(log entries 3 and 4). -/
def Obligations.ResetLeavesTheListedValues : Prop :=
  (∃ t, construct Config.standard [] = .next t ∧ t = State.reset) ∧
  ∀ (cfg : Cfg) (rom : List Byte) (t : State), construct cfg rom = .next t →
    t.cfg = cfg ∧ (∀ k, t.reg k = 0) ∧ t.I = 0 ∧ t.PC = 0x200 ∧
    (∀ j (h : j < 16), t.stack[j]'h = 0) ∧ t.SP = 0 ∧ t.DT = 0 ∧ t.ST = 0 ∧
    (∀ j (h : j < 16), t.key[j]'h = false) ∧ (∀ c r, Framebuffer.pixel t.fb c r = false) ∧
    t.redraw = false ∧ t.run = .running ∧ t.diaglog = [] ∧
    (∀ a (h : a < 80), t.byteAt a = cfg.font[a]) ∧ (∀ a, 0x050 ≤ a → a < 0x200 → t.byteAt a = 0) ∧
    (∀ a, 0x200 ≤ a → a < 0x1000 → t.byteAt a = rom.getD (a - 0x200) 0) ∧
    t.tickStep = 0 ∧ t.host = [] ∧ t.rndIn = []

/-- R181: RESET writes the 80 bytes of FONT to 0x000..0x04F, glyph d at 5*d, whatever WP_TOP protects. -/
def Obligations.ResetPreloadsTheFont : Prop :=
  ∀ (cfg : Cfg) (rom : List Byte) (t : State), construct cfg rom = .next t →
    ∀ d (hd : d < 16) j (hj : j < 5), t.byteAt (5 * d + j) = cfg.font[5 * d + j]

/-- RESET copies a ROM of up to 3584 bytes verbatim from 0x200, the rest of memory above the font zero; a
longer ROM is refused (70_reset_and_hazards.md section 1; decision D31; 20_memory.md section 1). -/
def Obligations.ResetLoadsTheRomVerbatim : Prop :=
  ∀ (cfg : Cfg) (rom : List Byte), 1 ≤ cfg.cyclesPerTick →
    (rom.length ≤ 3584 → Completes (construct cfg rom) fun t =>
      (∀ j (h : j < rom.length), t.byteAt (0x200 + j) = rom[j]) ∧
      (∀ a, 0x200 + rom.length ≤ a → a < 0x1000 → t.byteAt a = 0) ∧
      (∀ a, 0x50 ≤ a → a < 0x200 → t.byteAt a = 0)) ∧
    (3584 < rom.length → construct cfg rom = .refused .romTooLong)

/-! ## The tick and the host (60_exceptions.md section 4, 10_state.md section 7) -/

/-- The host's TICK, as R172 writes it, is reached by as many machine steps as it has Steps: at most
cyclesPerTick, and exactly that many when it does not fault (60_exceptions.md section 4). That the machine
takes a tick one Step at a time is the model's choice (log entry 4). -/
def Obligations.TickIsReachedByItsSteps : Prop :=
  ∀ (s : State) (keys : Keypad) (rest : List HostCmd), s.run = .running → s.tickStep = 0 →
    1 ≤ s.cfg.cyclesPerTick → s.host = .tick keys :: rest →
    ∃ k t, 1 ≤ k ∧ k ≤ s.cfg.cyclesPerTick ∧ Host.Core.run Sys2Proof.core k s = .next t ∧
      tick keys { s with host := rest } = .next t ∧ t.tickStep = 0 ∧
      (t.run = .running → k = s.cfg.cyclesPerTick)

/-- R173: at the end of a tick that completes DT and ST are each decremented by 1 if nonzero and stay at 0 if
0; they change at no other time except by Fx15 and Fx18. -/
def Obligations.TimersCountDownOncePerTick : Prop :=
  (∀ u : State, u.run = .running → u.cfg.cyclesPerTick ≤ u.tickStep + 1 →
    (endStep u).DT.toNat = u.DT.toNat - 1 ∧ (endStep u).ST.toNat = u.ST.toNat - 1) ∧
  (∀ u : State, u.run ≠ .running ∨ u.tickStep + 1 < u.cfg.cyclesPerTick →
    (endStep u).DT = u.DT ∧ (endStep u).ST = u.ST) ∧
  (∀ s t : State, engineStep s = .next t →
    (t.DT ≠ s.DT → ∃ x, decodeWord (wordAtPC s) = .instr (.ldDTVx x)) ∧
    (t.ST ≠ s.ST → ∃ x, decodeWord (wordAtPC s) = .instr (.ldSTVx x))) ∧
  (∀ (s t : State) (rest : List HostCmd), s.atBoundary = true → s.host = .ackRedraw :: rest →
    step s = .next t → t.DT = s.DT ∧ t.ST = s.ST)

/-- The beep of a completed tick is ST != 0 after the tick's decrement, so a tick that ends from ST = 1 gives none;
between ticks sound_active is ST != 0 (60_exceptions.md section 4). That a core which is not running has no beep is
60_exceptions.md sections 2 and 4 (decision D22), and that beep is read from the state at the tick boundary is the
model's own deduction (log entry 5). -/
def Obligations.BeepIsSoundTimerAfterDecrement : Prop :=
  (∀ u : State, u.run = .running → u.cfg.cyclesPerTick ≤ u.tickStep + 1 →
    ((endStep u).beep = true ↔ (endStep u).ST ≠ 0) ∧
    (u.ST = 1 → (endStep u).ST = 0 ∧ (endStep u).beep = false)) ∧
  (∀ s : State, s.soundActive = true ↔ s.ST ≠ 0) ∧
  (∀ s : State, s.run ≠ .running → s.beep = false)

/-- R176: the host's key vector is latched at the start of each tick, before the first Step, stays constant
for the rest of the tick, and keeps its last value between ticks. -/
def Obligations.KeypadIsLatchedPerTick : Prop :=
  (∀ (s t : State) (keys : Keypad) (rest : List HostCmd), s.run = .running → s.tickStep = 0 →
    s.host = .tick keys :: rest → step s = .next t →
    t.key = keys ∧ onNext endStep (engineStep { s with key := keys, host := rest }) = .next t) ∧
  (∀ (s t : State) (i : Instr), exec i s = .next t → t.key = s.key) ∧
  (∀ s t : State, s.run = .running → s.tickStep ≠ 0 → step s = .next t → t.key = s.key) ∧
  (∀ (s t : State) (rest : List HostCmd), s.atBoundary = true → s.host = .ackRedraw :: rest →
    step s = .next t → t.key = s.key) ∧
  (∀ (s t : State) (keys : Keypad), s.run = .running → tick keys s = .next t → t.key = keys)

/-- ACK_REDRAW clears the redraw flag and does nothing else; RESET constructs the core anew, whatever the old
one was (10_state.md section 7, decision D28). That the commands are listed in State.host, and that the host's
own side outlives RESET, is the model's choice (log entry 4). -/
def Obligations.HostCommandsActAtTickBoundaries : Prop :=
  ∀ s : State, s.atBoundary = true →
    (∀ rest, s.host = .ackRedraw :: rest → step s = .next { s with redraw := false, host := rest }) ∧
    (∀ cfg rom rest t, s.host = .reset cfg rom :: rest → construct cfg rom = .next t →
      step s = .next { t with host := rest, rndIn := s.rndIn, draws := s.draws })

/-- The configuration is fixed by RESET, and only RESET leaves a fault: a step at which no RESET acts keeps cfg,
and keeps a faulted core's run, PC, registers and memory (10_state.md section 6; 60_exceptions.md section 2,
decision D22). -/
def Obligations.OnlyResetChangesCfgOrLeavesFaulted : Prop :=
  ∀ s t : State, step s = .next t →
    (s.atBoundary = false ∨ ∀ cfg rom rest, s.host ≠ .reset cfg rom :: rest) →
    t.cfg = s.cfg ∧ (s.run ≠ .running → UnchangedBut [.redraw, .host] s t)

/-! ## Control flow (41_control_flow.md) -/

/-- R91: CLS, the word 0x00E0, unlights every pixel and sets the redraw flag, and does nothing else. -/
def Obligations.ClsClearsTheScreen : Prop :=
  DecodesExactly 0x00E0 .cls ∧ ∀ s : State, Completes (exec .cls s) fun t =>
    (∀ c r, Framebuffer.pixel t.fb c r = false) ∧ t.redraw = true ∧ UnchangedBut [.fb, .redraw] s t

/-- RET with an entry in use pops it to PC and does not clear it (decision D8); with none in use it faults
(decision D6) (41_control_flow.md, RET). -/
def Obligations.RetPopsOrUnderflows : Prop :=
  ∀ s : State,
    (∀ h : 0 < s.SP.val, Completes (exec .ret s) fun t =>
      t.SP.val = s.SP.val - 1 ∧ t.PC = s.stack[s.SP.val - 1]'(by omega) ∧ UnchangedBut [.SP, .PC] s t) ∧
    (s.SP = 0 → exec .ret s = .next (faultState s .ret .stackUnderflow none))

/-- R93: JP nnn, the word 0x1nnn, transfers control to nnn and does nothing else. -/
def Obligations.JpTransfersControl : Prop :=
  ∀ nnn : BitVec 12, DecodesExactly (0x1000 + nnn.toNat) (.jp nnn) ∧
    ∀ s : State, Completes (exec (.jp nnn) s) fun t => t.PC.toNat = nnn.toNat ∧ UnchangedBut [.PC] s t

/-- JP V0, nnn transfers control to V0 + nnn, not reduced to 12 bits (decision D17) (41_control_flow.md,
JP V0, nnn). -/
def Obligations.JpV0AddsTheOffset : Prop :=
  ∀ (nnn : BitVec 12) (s : State), Completes (exec (.jpV0 nnn) s) fun t =>
    t.PC.toNat = (s.reg 0).toNat + nnn.toNat ∧ UnchangedBut [.PC] s t

/-- CALL with a free entry pushes the advanced PC and transfers control; with all 16 in use it faults
(decisions D5, D7) (41_control_flow.md, CALL). -/
def Obligations.CallPushesOrOverflows : Prop :=
  ∀ (nnn : BitVec 12) (s : State),
    (∀ h : s.SP.val < 16, Completes (exec (.call nnn) s) fun t =>
      t.stack[s.SP.val]'h = s.PC ∧ (∀ j (hj : j < 16), j ≠ s.SP.val → t.stack[j]'hj = s.stack[j]'hj) ∧
      t.SP.val = s.SP.val + 1 ∧ t.PC.toNat = nnn.toNat ∧ UnchangedBut [.stack, .SP, .PC] s t) ∧
    (s.SP = 16 → exec (.call nnn) s = .next (faultState s (.call nnn) .stackOverflow none))

/-- The four conditional skips: PC moves 2 further exactly when the condition holds (decisions D17, D34: the
sense of each skip is the spec's own choice) (41_control_flow.md, the conditional skips). -/
def Obligations.SkipsAdvanceOnTheirCondition : Prop :=
  (∀ (x : Reg) (kk : Byte) (s : State), Completes (exec (.seImm x kk) s) fun t =>
    t.PC = (if s.reg x = kk then s.PC + 2 else s.PC) ∧ UnchangedBut [.PC] s t) ∧
  (∀ (x : Reg) (kk : Byte) (s : State), Completes (exec (.sneImm x kk) s) fun t =>
    t.PC = (if s.reg x = kk then s.PC else s.PC + 2) ∧ UnchangedBut [.PC] s t) ∧
  (∀ (x y : Reg) (s : State), Completes (exec (.seReg x y) s) fun t =>
    t.PC = (if s.reg x = s.reg y then s.PC + 2 else s.PC) ∧ UnchangedBut [.PC] s t) ∧
  (∀ (x y : Reg) (s : State), Completes (exec (.sneReg x y) s) fun t =>
    t.PC = (if s.reg x = s.reg y then s.PC else s.PC + 2) ∧ UnchangedBut [.PC] s t)

/-! ## Register and arithmetic (42_arithmetic.md) -/

/-- R111, R112, R113: load immediate (0x6xkk), add immediate with 8-bit wraparound and no flag (0x7xkk), and
copy (0x8xy0) write Vx and nothing else. -/
def Obligations.LoadAddImmediateAndCopyWriteVx : Prop :=
  (∀ (x : Reg) (kk : Byte), DecodesExactly (0x6000 + 0x100 * x.val + kk.toNat) (.ldImm x kk) ∧
    DecodesExactly (0x7000 + 0x100 * x.val + kk.toNat) (.addImm x kk)) ∧
  (∀ x y : Reg, DecodesExactly (0x8000 + 0x100 * x.val + 0x10 * y.val) (.ldReg x y)) ∧
  (∀ (x : Reg) (kk : Byte) (s : State), Completes (exec (.ldImm x kk) s) fun t =>
    t.reg x = kk ∧ (∀ k, k ≠ x → t.reg k = s.reg k) ∧ UnchangedBut [.V] s t) ∧
  (∀ (x : Reg) (kk : Byte) (s : State), Completes (exec (.addImm x kk) s) fun t =>
    (t.reg x).toNat = ((s.reg x).toNat + kk.toNat) % 256 ∧ (∀ k, k ≠ x → t.reg k = s.reg k) ∧
    UnchangedBut [.V] s t) ∧
  (∀ (x y : Reg) (s : State), Completes (exec (.ldReg x y) s) fun t =>
    t.reg x = s.reg y ∧ (∀ k, k ≠ x → t.reg k = s.reg k) ∧ UnchangedBut [.V] s t)

/-- OR, AND and XOR write Vx bit by bit and leave VF and every other register unchanged (decision D10)
(42_arithmetic.md, register copy and logic). -/
def Obligations.LogicWritesVxAndNoFlag : Prop :=
  ∀ (x y : Reg) (s : State),
    Completes (exec (.orReg x y) s) (fun t =>
      (∀ j, (t.reg x).getLsbD j = ((s.reg x).getLsbD j || (s.reg y).getLsbD j)) ∧
      (∀ k, k ≠ x → t.reg k = s.reg k) ∧ UnchangedBut [.V] s t) ∧
    Completes (exec (.andReg x y) s) (fun t =>
      (∀ j, (t.reg x).getLsbD j = ((s.reg x).getLsbD j && (s.reg y).getLsbD j)) ∧
      (∀ k, k ≠ x → t.reg k = s.reg k) ∧ UnchangedBut [.V] s t) ∧
    Completes (exec (.xorReg x y) s) (fun t =>
      (∀ j, (t.reg x).getLsbD j = ((s.reg x).getLsbD j ^^ (s.reg y).getLsbD j)) ∧
      (∀ k, k ≠ x → t.reg k = s.reg k) ∧ UnchangedBut [.V] s t)

/-- ADD Vx, Vy: the sum modulo 256 and the carry in VF, written last, so with x = F the carry stays (decision
D9) (42_arithmetic.md, arithmetic with flags). -/
def Obligations.AddSetsSumThenCarry : Prop :=
  ∀ (x y : Reg) (s : State), Completes (exec (.addReg x y) s) fun t =>
    (x ≠ VF → (t.reg x).toNat = ((s.reg x).toNat + (s.reg y).toNat) % 256) ∧
    t.reg VF = (if 255 < (s.reg x).toNat + (s.reg y).toNat then 1 else 0) ∧
    (∀ k, k ≠ x → k ≠ VF → t.reg k = s.reg k) ∧ UnchangedBut [.V] s t

/-- SUB and SUBN: the difference modulo 256 and not-borrow in VF, written last (decision D9)
(42_arithmetic.md, arithmetic with flags). -/
def Obligations.SubtractsSetDifferenceThenNotBorrow : Prop :=
  ∀ (x y : Reg) (s : State),
    Completes (exec (.sub x y) s) (fun t =>
      (x ≠ VF → (t.reg x).toNat = ((s.reg x).toNat + 256 - (s.reg y).toNat) % 256) ∧
      t.reg VF = (if (s.reg y).toNat ≤ (s.reg x).toNat then 1 else 0) ∧
      (∀ k, k ≠ x → k ≠ VF → t.reg k = s.reg k) ∧ UnchangedBut [.V] s t) ∧
    Completes (exec (.subn x y) s) (fun t =>
      (x ≠ VF → (t.reg x).toNat = ((s.reg y).toNat + 256 - (s.reg x).toNat) % 256) ∧
      t.reg VF = (if (s.reg x).toNat ≤ (s.reg y).toNat then 1 else 0) ∧
      (∀ k, k ≠ x → k ≠ VF → t.reg k = s.reg k) ∧ UnchangedBut [.V] s t)

/-- SHR and SHL shift Vx in place under shiftQuirk, else Vy, into Vx; VF gets the bit shifted out, last
(decision D9) (42_arithmetic.md, shifts). -/
def Obligations.ShiftsSetResultThenBitShiftedOut : Prop :=
  ∀ (x y : Reg) (s : State) (src : Byte), src = (if s.cfg.shiftQuirk = true then s.reg x else s.reg y) →
    Completes (exec (.shr x y) s) (fun t =>
      (x ≠ VF → (t.reg x).toNat = src.toNat / 2) ∧ (t.reg VF).toNat = src.toNat % 2 ∧
      (∀ k, k ≠ x → k ≠ VF → t.reg k = s.reg k) ∧ UnchangedBut [.V] s t) ∧
    Completes (exec (.shl x y) s) (fun t =>
      (x ≠ VF → (t.reg x).toNat = src.toNat * 2 % 256) ∧ (t.reg VF).toNat = src.toNat / 128 ∧
      (∀ k, k ≠ x → k ≠ VF → t.reg k = s.reg k) ∧ UnchangedBut [.V] s t)

/-- RND: one byte is drawn on every execution and Vx gets it under the mask. The byte is the next the random
source has ready, else a free value (decision D29; log entry 3). -/
def Obligations.RndMasksOneDrawnByte : Prop :=
  ∀ (x : Reg) (kk : Byte) (s : State), Completes (exec (.rnd x kk) s) fun t =>
    (∀ r rest, s.rndIn = r :: rest → t.reg x = r &&& kk ∧ t.rndIn = rest ∧ t.draws = s.draws) ∧
    (s.rndIn = [] → t.reg x = Config.rndByte s.draws &&& kk ∧ t.rndIn = [] ∧ t.draws = s.draws + 1) ∧
    (∀ k, k ≠ x → t.reg k = s.reg k) ∧ UnchangedBut [.V, .rndIn, .draws] s t

/-! ## Display (43_display.md) -/

/-- DRW inside the memory toggles exactly the cells the sprite covers under the configured wrap strategy; VF is
1 if a covered cell was lit, else 0; the redraw flag is set; nothing else changes (43_display.md; decisions D9,
D11, D12, D13). -/
def Obligations.DrawTogglesTheSpriteCells : Prop :=
  ∀ (x y : Reg) (n : Fin 16) (s : State), n.val = 0 ∨ s.I.toNat + n.val ≤ 0x1000 →
    Completes (exec (.drw x y n) s) fun t =>
      (∀ c r, SpriteCovers s (s.reg x) (s.reg y) n.val c r →
        Framebuffer.pixel t.fb c r = !Framebuffer.pixel s.fb c r) ∧
      (∀ c r, ¬SpriteCovers s (s.reg x) (s.reg y) n.val c r →
        Framebuffer.pixel t.fb c r = Framebuffer.pixel s.fb c r) ∧
      ((∃ c r, SpriteCovers s (s.reg x) (s.reg y) n.val c r ∧ Framebuffer.pixel s.fb c r = true) →
        t.reg VF = 1) ∧
      ((∀ c r, SpriteCovers s (s.reg x) (s.reg y) n.val c r → Framebuffer.pixel s.fb c r = false) →
        t.reg VF = 0) ∧
      t.redraw = true ∧ (∀ k, k ≠ VF → t.reg k = s.reg k) ∧ UnchangedBut [.V, .fb, .redraw] s t

/-- Drawing the same sprite twice in succession restores the framebuffer, and the second draw's VF is 1 exactly
when the first turned a cell from unlit to lit (R136, which the spec derives; neither x nor y is VF). -/
def Obligations.DrawingTwiceRestoresTheScreen : Prop :=
  ∀ (x y : Reg) (n : Fin 16) (s : State), x ≠ VF → y ≠ VF → n.val = 0 ∨ s.I.toNat + n.val ≤ 0x1000 →
    ∃ t u, exec (.drw x y n) s = .next t ∧ exec (.drw x y n) t = .next u ∧ u.fb = s.fb ∧
      (u.reg VF = 1 ↔
        ∃ c r, Framebuffer.pixel s.fb c r = false ∧ Framebuffer.pixel t.fb c r = true) ∧
      (u.reg VF = 0 ∨ u.reg VF = 1)

/-- After CLS any draw inside the memory sets VF = 0 (R136, which the spec derives). -/
def Obligations.DrawAfterClearHasNoCollision : Prop :=
  ∀ (x y : Reg) (n : Fin 16) (s : State), n.val = 0 ∨ s.I.toNat + n.val ≤ 0x1000 →
    ∃ t u, exec .cls s = .next t ∧ exec (.drw x y n) t = .next u ∧ u.reg VF = 0

/-! ## Index, keypad, timers, memory (44_keypad_timer_memory.md) -/

/-- LD I, nnn loads I (the whole instruction is the spec's decision D18), ADD I, Vx adds modulo 65536 with no
flag (D16), and LD F, Vx gives the glyph address 5 * V[x], unmasked (D15) (44_keypad_timer_memory.md). -/
def Obligations.IndexInstrsWriteI : Prop :=
  (∀ (nnn : BitVec 12) (s : State), Completes (exec (.ldI nnn) s) fun t =>
    t.I.toNat = nnn.toNat ∧ UnchangedBut [.I] s t) ∧
  (∀ (x : Reg) (s : State), Completes (exec (.addI x) s) fun t =>
    t.I.toNat = (s.I.toNat + (s.reg x).toNat) % 65536 ∧ UnchangedBut [.I] s t) ∧
  (∀ (x : Reg) (s : State), Completes (exec (.ldF x) s) fun t =>
    t.I.toNat = 5 * (s.reg x).toNat ∧ UnchangedBut [.I] s t)

/-- SKP and SKNP skip on the state of the key V[x] names, and fault for a value above 0xF (decision D14)
(44_keypad_timer_memory.md, key skips). -/
def Obligations.KeySkipsTestTheKeypad : Prop :=
  ∀ (x : Reg) (s : State),
    (∀ h : (s.reg x).toNat < 16,
      Completes (exec (.skp x) s) (fun t =>
        t.PC = (if s.key[(s.reg x).toNat]'h = true then s.PC + 2 else s.PC) ∧ UnchangedBut [.PC] s t) ∧
      Completes (exec (.sknp x) s) (fun t =>
        t.PC = (if s.key[(s.reg x).toNat]'h = true then s.PC else s.PC + 2) ∧ UnchangedBut [.PC] s t)) ∧
    (0xF < (s.reg x).toNat →
      exec (.skp x) s = .next (faultState s (.skp x) .keyRange none) ∧
      exec (.sknp x) s = .next (faultState s (.sknp x) .keyRange none))

/-- R145: LD Vx, K, the word 0xFx0A, stores the least pressed key, or with no key pressed rewinds PC by 2, so
that the same instruction is fetched again, and does nothing else: a Step of it with no key pressed leaves the
state as it was. -/
def Obligations.KeyWaitStoresLeastKeyOrRewinds : Prop :=
  ∀ x : Reg, DecodesExactly (0xF00A + 0x100 * x.val) (.ldVxK x) ∧ ∀ s : State,
    (s.run = .running → s.PC.toNat ≤ 0xFFE → decodeWord (wordAtPC s) = .instr (.ldVxK x) →
      (∀ k : Reg, s.key[k.val]'k.isLt = false) → engineStep s = .next s) ∧
    (∀ k : Reg, s.key[k.val]'k.isLt = true → (∀ j : Reg, j < k → s.key[j.val]'j.isLt = false) →
      Completes (exec (.ldVxK x) s) fun t =>
        (t.reg x).toNat = k.val ∧ (∀ j, j ≠ x → t.reg j = s.reg j) ∧ UnchangedBut [.V] s t) ∧
    ((∀ k : Reg, s.key[k.val]'k.isLt = false) →
      Completes (exec (.ldVxK x) s) fun t => t.PC = s.PC - 2 ∧ UnchangedBut [.PC] s t)

/-- R144, R146, R147: the timer moves 0xFx07, 0xFx15 and 0xFx18. A value set is decremented first at the end
of the same tick, and sound_active follows ST at once. -/
def Obligations.TimerMovesCopyOneByte : Prop :=
  (∀ x : Reg, DecodesExactly (0xF007 + 0x100 * x.val) (.ldVxDT x) ∧
    DecodesExactly (0xF015 + 0x100 * x.val) (.ldDTVx x) ∧
    DecodesExactly (0xF018 + 0x100 * x.val) (.ldSTVx x)) ∧
  (∀ (x : Reg) (s : State), Completes (exec (.ldVxDT x) s) fun t =>
    t.reg x = s.DT ∧ (∀ k, k ≠ x → t.reg k = s.reg k) ∧ UnchangedBut [.V] s t) ∧
  (∀ (x : Reg) (s : State), Completes (exec (.ldDTVx x) s) fun t =>
    t.DT = s.reg x ∧ UnchangedBut [.DT] s t ∧
    (s.run = .running → s.cfg.cyclesPerTick ≤ s.tickStep + 1 →
      (endStep t).DT.toNat = (s.reg x).toNat - 1)) ∧
  (∀ (x : Reg) (s : State), Completes (exec (.ldSTVx x) s) fun t =>
    t.ST = s.reg x ∧ UnchangedBut [.ST] s t ∧ (t.soundActive = true ↔ s.reg x ≠ 0) ∧
    (s.run = .running → s.cfg.cyclesPerTick ≤ s.tickStep + 1 →
      (endStep t).ST.toNat = (s.reg x).toNat - 1 ∧
      ((endStep t).beep = true ↔ 1 < (s.reg x).toNat)))

/-- LD B, Vx inside the memory stores the three decimal digits at I, I+1, I+2, each byte through the write
check: one at or below WP_TOP is dropped with a WPROT record, in ascending order, and the others are stored
(44_keypad_timer_memory.md, memory stores and loads; decisions D1, D3, D4). -/
def Obligations.BcdStoresThreeDigits : Prop :=
  ∀ (x : Reg) (s : State), s.I.toNat + 3 ≤ 0x1000 → Completes (exec (.ldB x) s) fun t =>
    (s.cfg.wpTop.toNat < s.I.toNat → (t.byteAt s.I.toNat).toNat = (s.reg x).toNat / 100) ∧
    (s.cfg.wpTop.toNat < s.I.toNat + 1 →
      (t.byteAt (s.I.toNat + 1)).toNat = (s.reg x).toNat / 10 % 10) ∧
    (s.cfg.wpTop.toNat < s.I.toNat + 2 → (t.byteAt (s.I.toNat + 2)).toNat = (s.reg x).toNat % 10) ∧
    (∀ a, a ≤ s.cfg.wpTop.toNat ∨ a < s.I.toNat ∨ s.I.toNat + 3 ≤ a → t.byteAt a = s.byteAt a) ∧
    t.diaglog = s.diaglog ++
      ([s.I.toNat, s.I.toNat + 1, s.I.toNat + 2].filter fun a => decide (a ≤ s.cfg.wpTop.toNat)).map
        (fun a => ⟨.wprot, s.PC - 2, encode (.ldB x), some a⟩) ∧
    UnchangedBut [.mem, .diaglog] s t

/-- LD [I], Vx inside the memory stores V0 to Vx at I, I+1, ..., each byte through the write check, and then
advances I by x + 1 unless loadStoreQuirk (44_keypad_timer_memory.md, memory stores and loads; decisions D1,
D3, D4, D16). -/
def Obligations.BlockStoreWritesTheRegisters : Prop :=
  ∀ (x : Reg) (s : State), s.I.toNat + x.val + 1 ≤ 0x1000 → Completes (exec (.ldMemVx x) s) fun t =>
    (∀ k : Reg, k ≤ x → s.cfg.wpTop.toNat < s.I.toNat + k.val → t.byteAt (s.I.toNat + k.val) = s.reg k) ∧
    (∀ a, a ≤ s.cfg.wpTop.toNat ∨ a < s.I.toNat ∨ s.I.toNat + x.val + 1 ≤ a → t.byteAt a = s.byteAt a) ∧
    t.diaglog = s.diaglog ++
      ((List.range' s.I.toNat (x.val + 1)).filter fun a => decide (a ≤ s.cfg.wpTop.toNat)).map
        (fun a => ⟨.wprot, s.PC - 2, encode (.ldMemVx x), some a⟩) ∧
    t.I.toNat = (if s.cfg.loadStoreQuirk = true then s.I.toNat else s.I.toNat + x.val + 1) ∧
    UnchangedBut [.mem, .diaglog, .I] s t

/-- LD Vx, [I] inside the memory loads V0 to Vx from I, I+1, ..., and then advances I by x + 1 unless
loadStoreQuirk (44_keypad_timer_memory.md, memory stores and loads; decisions D2, D3, D16). -/
def Obligations.BlockLoadReadsTheRegisters : Prop :=
  ∀ (x : Reg) (s : State), s.I.toNat + x.val + 1 ≤ 0x1000 → Completes (exec (.ldVxMem x) s) fun t =>
    (∀ k : Reg, k ≤ x → t.reg k = s.byteAt (s.I.toNat + k.val)) ∧
    (∀ k : Reg, x < k → t.reg k = s.reg k) ∧
    t.I.toNat = (if s.cfg.loadStoreQuirk = true then s.I.toNat else s.I.toNat + x.val + 1) ∧
    UnchangedBut [.V, .I] s t

/-- A block store and then a block load of the same range, with I set back to the same value, restores V0 to Vx
under either quirk setting, when no byte of the range lies at or below WP_TOP (44_keypad_timer_memory.md R152,
corner cases; 90_conflicts.md C9). -/
def Obligations.BlockStoreThenLoadRestores : Prop :=
  ∀ (x : Reg) (s t u : State), s.I.toNat + x.val + 1 ≤ 0x1000 → s.cfg.wpTop.toNat < s.I.toNat →
    exec (.ldMemVx x) s = .next t → (∀ a, u.byteAt a = t.byteAt a) → u.I = s.I →
    Completes (exec (.ldVxMem x) u) fun v => ∀ k : Reg, k ≤ x → v.reg k = s.reg k

end
end

