-- ==== Sys2Proof/Laws/Decode.lean ====
section
/-! SUPPORT. The fields of packed words, and packed words under the masks of the opcode map. -/

namespace Sys2Proof

variable (op : BitVec 4) (nnn : BitVec 12) (x y n : Reg) (kk : Byte)

/-! ## Fields of packed words -/

@[simp] theorem fieldOp_packNNN : fieldOp (packNNN op nnn) = op.toNat := by
  simp only [fieldOp]; congr 1; ext i hi; simp only [packNNN, BitVec.getElem_extractLsb', BitVec.getLsbD_append]; interval_cases i <;> simp
@[simp] theorem fieldNNN_packNNN : fieldNNN (packNNN op nnn) = nnn := by
  simp only [fieldNNN]; ext i hi; simp only [packNNN, BitVec.getElem_extractLsb', BitVec.getLsbD_append]; interval_cases i <;> simp

@[simp] theorem fieldOp_packXKK : fieldOp (packXKK op x kk) = op.toNat := by
  simp only [fieldOp]; congr 1; ext i hi; simp only [packXKK, BitVec.getElem_extractLsb', BitVec.getLsbD_append]; interval_cases i <;> simp
@[simp] theorem fieldX_packXKK : fieldX (packXKK op x kk) = x := by
  have : (packXKK op x kk).extractLsb' 8 4 = BitVec.ofFin (w := 4) x := by
    ext i hi; simp only [packXKK, BitVec.getElem_extractLsb', BitVec.getLsbD_append]; interval_cases i <;> simp
  rw [fieldX, this]
@[simp] theorem fieldKK_packXKK : fieldKK (packXKK op x kk) = kk := by
  simp only [fieldKK]; ext i hi; simp only [packXKK, BitVec.getElem_extractLsb', BitVec.getLsbD_append]; interval_cases i <;> simp

@[simp] theorem fieldOp_packXYN : fieldOp (packXYN op x y n) = op.toNat := by
  simp only [fieldOp]; congr 1; ext i hi; simp only [packXYN, BitVec.getElem_extractLsb', BitVec.getLsbD_append]; interval_cases i <;> simp
@[simp] theorem fieldX_packXYN : fieldX (packXYN op x y n) = x := by
  have : (packXYN op x y n).extractLsb' 8 4 = BitVec.ofFin (w := 4) x := by
    ext i hi; simp only [packXYN, BitVec.getElem_extractLsb', BitVec.getLsbD_append]; interval_cases i <;> simp
  rw [fieldX, this]
@[simp] theorem fieldY_packXYN : fieldY (packXYN op x y n) = y := by
  have : (packXYN op x y n).extractLsb' 4 4 = BitVec.ofFin (w := 4) y := by
    ext i hi; simp only [packXYN, BitVec.getElem_extractLsb', BitVec.getLsbD_append]; interval_cases i <;> simp
  rw [fieldY, this]
@[simp] theorem fieldN_packXYN : fieldN (packXYN op x y n) = n := by
  have : (packXYN op x y n).extractLsb' 0 4 = BitVec.ofFin (w := 4) n := by
    ext i hi; simp only [packXYN, BitVec.getElem_extractLsb', BitVec.getLsbD_append]; interval_cases i <;> simp
  rw [fieldN, this]

/-! ## A word as its four nibbles -/

/-- Appending a value below 16 to a number's binary digits. -/
theorem shift4_or (a : Nat) {b : Nat} (h : b < 16) : a <<< 4 ||| b = a * 16 + b := by
  rw [← Nat.shiftLeft_add_eq_or_of_lt (i := 4) (by simpa using h), Nat.shiftLeft_eq]

/-- Every word is packed from its four nibbles (R70). -/
theorem eq_packXYN (w : Word) :
    w = packXYN (w.extractLsb' 12 4) (fieldX w) (fieldY w) (fieldN w) := by
  refine BitVec.eq_of_getLsbD_eq fun i hi => ?_
  simp only [packXYN, fieldX, fieldY, fieldN, BitVec.getLsbD_append, BitVec.ofFin_toFin,
    BitVec.getLsbD_extractLsb']
  interval_cases i <;> simp

theorem toNat_packXYN :
    (packXYN op x y n).toNat = op.toNat * 4096 + x.val * 256 + y.val * 16 + n.val := by
  simp only [packXYN, BitVec.toNat_append, BitVec.toNat_ofFin, shift4_or _ x.isLt, shift4_or _ y.isLt,
    shift4_or _ n.isLt]
  omega

theorem toNat_fieldKK_packXYN : (fieldKK (packXYN op x y n)).toNat = y.val * 16 + n.val := by
  have : fieldKK (packXYN op x y n) = BitVec.ofFin (w := 4) y ++ BitVec.ofFin (w := 4) n := by
    refine BitVec.eq_of_getLsbD_eq fun i hi => ?_
    simp only [packXYN, fieldKK, BitVec.getLsbD_append, BitVec.getLsbD_extractLsb']
    interval_cases i <;> simp
  rw [this, BitVec.toNat_append, BitVec.toNat_ofFin, BitVec.toNat_ofFin, shift4_or _ n.isLt]

theorem toNat_fieldNNN_packXYN :
    (fieldNNN (packXYN op x y n)).toNat = x.val * 256 + y.val * 16 + n.val := by
  have : fieldNNN (packXYN op x y n) =
      BitVec.ofFin (w := 4) x ++ BitVec.ofFin (w := 4) y ++ BitVec.ofFin (w := 4) n := by
    refine BitVec.eq_of_getLsbD_eq fun i hi => ?_
    simp only [packXYN, fieldNNN, BitVec.getLsbD_append, BitVec.getLsbD_extractLsb']
    interval_cases i <;> simp
  rw [this, BitVec.toNat_append, BitVec.toNat_append, BitVec.toNat_ofFin, BitVec.toNat_ofFin,
    BitVec.toNat_ofFin, shift4_or _ y.isLt, shift4_or _ n.isLt]
  omega

/-! ## Packed words under a mask -/

theorem packNNN_and_F000 : packNNN op nnn &&& 0xF000#16 = packNNN op 0 := by
  refine BitVec.eq_of_getLsbD_eq fun i hi => ?_
  simp only [packNNN, BitVec.getLsbD_and, BitVec.getLsbD_append]
  interval_cases i <;> simp
theorem packXKK_and_F000 : packXKK op x kk &&& 0xF000#16 = packXKK op 0 0 := by
  refine BitVec.eq_of_getLsbD_eq fun i hi => ?_
  simp only [packXKK, BitVec.getLsbD_and, BitVec.getLsbD_append]
  interval_cases i <;> simp
theorem packXKK_and_F0FF : packXKK op x kk &&& 0xF0FF#16 = packXKK op 0 kk := by
  refine BitVec.eq_of_getLsbD_eq fun i hi => ?_
  simp only [packXKK, BitVec.getLsbD_and, BitVec.getLsbD_append]
  interval_cases i <;> simp
theorem packXYN_and_F000 : packXYN op x y n &&& 0xF000#16 = packXYN op 0 0 0 := by
  refine BitVec.eq_of_getLsbD_eq fun i hi => ?_
  simp only [packXYN, BitVec.getLsbD_and, BitVec.getLsbD_append]
  interval_cases i <;> simp
theorem packXYN_and_F00F : packXYN op x y n &&& 0xF00F#16 = packXYN op 0 0 n := by
  refine BitVec.eq_of_getLsbD_eq fun i hi => ?_
  simp only [packXYN, BitVec.getLsbD_and, BitVec.getLsbD_append]
  interval_cases i <;> simp

theorem packXYN_and_F0FF : packXYN op x y n &&& 0xF0FF#16 = packXYN op 0 y n := by
  refine BitVec.eq_of_getLsbD_eq fun i hi => ?_
  simp only [packXYN, BitVec.getLsbD_and, BitVec.getLsbD_append]
  interval_cases i <;> simp
theorem packXYN_and_FFF0 : packXYN op x y n &&& 0xFFF0#16 = packXYN op x y 0 := by
  refine BitVec.eq_of_getLsbD_eq fun i hi => ?_
  simp only [packXYN, BitVec.getLsbD_and, BitVec.getLsbD_append]
  interval_cases i <;> simp
theorem and_FFFF (w : Word) : w &&& 0xFFFF#16 = w := by
  refine BitVec.eq_of_getLsbD_eq fun i hi => ?_
  interval_cases i <;> simp

/-! ## A word packed again from its fields -/

/-- The top nibble of a word, from its value. -/
theorem extract_of_fieldOp {w : Word} {op : BitVec 4} (h : fieldOp w = op.toNat) : w.extractLsb' 12 4 = op :=
  BitVec.eq_of_toNat_eq h

theorem packNNN_fields {w : Word} {op : BitVec 4} (h : fieldOp w = op.toNat) : packNNN op (fieldNNN w) = w := by
  rw [← extract_of_fieldOp h]
  refine BitVec.eq_of_getLsbD_eq fun i hi => ?_
  simp only [packNNN, fieldNNN, BitVec.getLsbD_append, BitVec.getLsbD_extractLsb']
  interval_cases i <;> simp

theorem packXKK_fields {w : Word} {op : BitVec 4} (h : fieldOp w = op.toNat) :
    packXKK op (fieldX w) (fieldKK w) = w := by
  rw [← extract_of_fieldOp h]
  refine BitVec.eq_of_getLsbD_eq fun i hi => ?_
  simp only [packXKK, fieldX, fieldKK, BitVec.getLsbD_append, BitVec.ofFin_toFin, BitVec.getLsbD_extractLsb']
  interval_cases i <;> simp

theorem packXYN_fields {w : Word} {op : BitVec 4} (h : fieldOp w = op.toNat) :
    packXYN op (fieldX w) (fieldY w) (fieldN w) = w := by
  rw [← extract_of_fieldOp h]
  exact (eq_packXYN w).symm

/-! ## Bytes -/

/-- A word is its two bytes (R56). -/
@[simp] theorem wordOfBytes_hi_lo (w : Word) : wordOfBytes (hiByte w) (loByte w) = w := by
  refine BitVec.eq_of_getLsbD_eq fun i hi => ?_
  simp only [wordOfBytes, hiByte, loByte, BitVec.getLsbD_append, BitVec.getLsbD_extractLsb']
  interval_cases i <;> simp
@[simp] theorem hiByte_wordOfBytes (a b : Byte) : hiByte (wordOfBytes a b) = a := by
  ext i hi; simp only [wordOfBytes, hiByte, BitVec.getElem_extractLsb', BitVec.getLsbD_append]; interval_cases i <;> simp
@[simp] theorem loByte_wordOfBytes (a b : Byte) : loByte (wordOfBytes a b) = b := by
  ext i hi; simp only [wordOfBytes, loByte, BitVec.getElem_extractLsb', BitVec.getLsbD_append]; interval_cases i <;> simp

end Sys2Proof
end

