-- ==== Sys2Proof/Laws/State.lean ====
section
/-! SUPPORT. One lemma per field per update of the state, each true by rfl, so that no proof unfolds a
record update. -/

namespace Sys2Proof.Machine.State

variable (s : State)

/-! ### setReg -/

@[simp] theorem setReg_mem (x : Reg) (v : Byte) : (s.setReg x v).mem = s.mem := rfl
@[simp] theorem setReg_V (x : Reg) (v : Byte) : (s.setReg x v).V = s.V.set x.val v x.isLt := rfl
@[simp] theorem setReg_I (x : Reg) (v : Byte) : (s.setReg x v).I = s.I := rfl
@[simp] theorem setReg_PC (x : Reg) (v : Byte) : (s.setReg x v).PC = s.PC := rfl
@[simp] theorem setReg_stack (x : Reg) (v : Byte) : (s.setReg x v).stack = s.stack := rfl
@[simp] theorem setReg_SP (x : Reg) (v : Byte) : (s.setReg x v).SP = s.SP := rfl
@[simp] theorem setReg_DT (x : Reg) (v : Byte) : (s.setReg x v).DT = s.DT := rfl
@[simp] theorem setReg_ST (x : Reg) (v : Byte) : (s.setReg x v).ST = s.ST := rfl
@[simp] theorem setReg_key (x : Reg) (v : Byte) : (s.setReg x v).key = s.key := rfl
@[simp] theorem setReg_fb (x : Reg) (v : Byte) : (s.setReg x v).fb = s.fb := rfl
@[simp] theorem setReg_redraw (x : Reg) (v : Byte) : (s.setReg x v).redraw = s.redraw := rfl
@[simp] theorem setReg_run (x : Reg) (v : Byte) : (s.setReg x v).run = s.run := rfl
@[simp] theorem setReg_diaglog (x : Reg) (v : Byte) : (s.setReg x v).diaglog = s.diaglog := rfl
@[simp] theorem setReg_cfg (x : Reg) (v : Byte) : (s.setReg x v).cfg = s.cfg := rfl
@[simp] theorem setReg_tickStep (x : Reg) (v : Byte) : (s.setReg x v).tickStep = s.tickStep := rfl
@[simp] theorem setReg_host (x : Reg) (v : Byte) : (s.setReg x v).host = s.host := rfl
@[simp] theorem setReg_rndIn (x : Reg) (v : Byte) : (s.setReg x v).rndIn = s.rndIn := rfl
@[simp] theorem setReg_draws (x : Reg) (v : Byte) : (s.setReg x v).draws = s.draws := rfl
@[simp] theorem setReg_byteAt (x : Reg) (v : Byte) (n : Nat) : (s.setReg x v).byteAt n = s.byteAt n := rfl

/-! ### setI -/

@[simp] theorem setI_mem (v : Word) : (s.setI v).mem = s.mem := rfl
@[simp] theorem setI_V (v : Word) : (s.setI v).V = s.V := rfl
@[simp] theorem setI_I (v : Word) : (s.setI v).I = v := rfl
@[simp] theorem setI_PC (v : Word) : (s.setI v).PC = s.PC := rfl
@[simp] theorem setI_stack (v : Word) : (s.setI v).stack = s.stack := rfl
@[simp] theorem setI_SP (v : Word) : (s.setI v).SP = s.SP := rfl
@[simp] theorem setI_DT (v : Word) : (s.setI v).DT = s.DT := rfl
@[simp] theorem setI_ST (v : Word) : (s.setI v).ST = s.ST := rfl
@[simp] theorem setI_key (v : Word) : (s.setI v).key = s.key := rfl
@[simp] theorem setI_fb (v : Word) : (s.setI v).fb = s.fb := rfl
@[simp] theorem setI_redraw (v : Word) : (s.setI v).redraw = s.redraw := rfl
@[simp] theorem setI_run (v : Word) : (s.setI v).run = s.run := rfl
@[simp] theorem setI_diaglog (v : Word) : (s.setI v).diaglog = s.diaglog := rfl
@[simp] theorem setI_cfg (v : Word) : (s.setI v).cfg = s.cfg := rfl
@[simp] theorem setI_tickStep (v : Word) : (s.setI v).tickStep = s.tickStep := rfl
@[simp] theorem setI_host (v : Word) : (s.setI v).host = s.host := rfl
@[simp] theorem setI_rndIn (v : Word) : (s.setI v).rndIn = s.rndIn := rfl
@[simp] theorem setI_draws (v : Word) : (s.setI v).draws = s.draws := rfl
@[simp] theorem setI_byteAt (v : Word) (n : Nat) : (s.setI v).byteAt n = s.byteAt n := rfl
@[simp] theorem setI_reg (v : Word) (k : Reg) : (s.setI v).reg k = s.reg k := rfl

/-! ### setPC -/

@[simp] theorem setPC_mem (v : Word) : (s.setPC v).mem = s.mem := rfl
@[simp] theorem setPC_V (v : Word) : (s.setPC v).V = s.V := rfl
@[simp] theorem setPC_I (v : Word) : (s.setPC v).I = s.I := rfl
@[simp] theorem setPC_PC (v : Word) : (s.setPC v).PC = v := rfl
@[simp] theorem setPC_stack (v : Word) : (s.setPC v).stack = s.stack := rfl
@[simp] theorem setPC_SP (v : Word) : (s.setPC v).SP = s.SP := rfl
@[simp] theorem setPC_DT (v : Word) : (s.setPC v).DT = s.DT := rfl
@[simp] theorem setPC_ST (v : Word) : (s.setPC v).ST = s.ST := rfl
@[simp] theorem setPC_key (v : Word) : (s.setPC v).key = s.key := rfl
@[simp] theorem setPC_fb (v : Word) : (s.setPC v).fb = s.fb := rfl
@[simp] theorem setPC_redraw (v : Word) : (s.setPC v).redraw = s.redraw := rfl
@[simp] theorem setPC_run (v : Word) : (s.setPC v).run = s.run := rfl
@[simp] theorem setPC_diaglog (v : Word) : (s.setPC v).diaglog = s.diaglog := rfl
@[simp] theorem setPC_cfg (v : Word) : (s.setPC v).cfg = s.cfg := rfl
@[simp] theorem setPC_tickStep (v : Word) : (s.setPC v).tickStep = s.tickStep := rfl
@[simp] theorem setPC_host (v : Word) : (s.setPC v).host = s.host := rfl
@[simp] theorem setPC_rndIn (v : Word) : (s.setPC v).rndIn = s.rndIn := rfl
@[simp] theorem setPC_draws (v : Word) : (s.setPC v).draws = s.draws := rfl
@[simp] theorem setPC_byteAt (v : Word) (n : Nat) : (s.setPC v).byteAt n = s.byteAt n := rfl
@[simp] theorem setPC_reg (v : Word) (k : Reg) : (s.setPC v).reg k = s.reg k := rfl

/-! ### advance -/

@[simp] theorem advance_mem : (s.advance).mem = s.mem := rfl
@[simp] theorem advance_V : (s.advance).V = s.V := rfl
@[simp] theorem advance_I : (s.advance).I = s.I := rfl
@[simp] theorem advance_PC : (s.advance).PC = s.PC + 2 := rfl
@[simp] theorem advance_stack : (s.advance).stack = s.stack := rfl
@[simp] theorem advance_SP : (s.advance).SP = s.SP := rfl
@[simp] theorem advance_DT : (s.advance).DT = s.DT := rfl
@[simp] theorem advance_ST : (s.advance).ST = s.ST := rfl
@[simp] theorem advance_key : (s.advance).key = s.key := rfl
@[simp] theorem advance_fb : (s.advance).fb = s.fb := rfl
@[simp] theorem advance_redraw : (s.advance).redraw = s.redraw := rfl
@[simp] theorem advance_run : (s.advance).run = s.run := rfl
@[simp] theorem advance_diaglog : (s.advance).diaglog = s.diaglog := rfl
@[simp] theorem advance_cfg : (s.advance).cfg = s.cfg := rfl
@[simp] theorem advance_tickStep : (s.advance).tickStep = s.tickStep := rfl
@[simp] theorem advance_host : (s.advance).host = s.host := rfl
@[simp] theorem advance_rndIn : (s.advance).rndIn = s.rndIn := rfl
@[simp] theorem advance_draws : (s.advance).draws = s.draws := rfl
@[simp] theorem advance_byteAt (n : Nat) : (s.advance).byteAt n = s.byteAt n := rfl
@[simp] theorem advance_reg (k : Reg) : (s.advance).reg k = s.reg k := rfl

/-! ### skipIf -/

@[simp] theorem skipIf_mem (c : Bool) : (s.skipIf c).mem = s.mem := rfl
@[simp] theorem skipIf_V (c : Bool) : (s.skipIf c).V = s.V := rfl
@[simp] theorem skipIf_I (c : Bool) : (s.skipIf c).I = s.I := rfl
@[simp] theorem skipIf_PC (c : Bool) : (s.skipIf c).PC = if c then s.PC + 2 else s.PC := rfl
@[simp] theorem skipIf_stack (c : Bool) : (s.skipIf c).stack = s.stack := rfl
@[simp] theorem skipIf_SP (c : Bool) : (s.skipIf c).SP = s.SP := rfl
@[simp] theorem skipIf_DT (c : Bool) : (s.skipIf c).DT = s.DT := rfl
@[simp] theorem skipIf_ST (c : Bool) : (s.skipIf c).ST = s.ST := rfl
@[simp] theorem skipIf_key (c : Bool) : (s.skipIf c).key = s.key := rfl
@[simp] theorem skipIf_fb (c : Bool) : (s.skipIf c).fb = s.fb := rfl
@[simp] theorem skipIf_redraw (c : Bool) : (s.skipIf c).redraw = s.redraw := rfl
@[simp] theorem skipIf_run (c : Bool) : (s.skipIf c).run = s.run := rfl
@[simp] theorem skipIf_diaglog (c : Bool) : (s.skipIf c).diaglog = s.diaglog := rfl
@[simp] theorem skipIf_cfg (c : Bool) : (s.skipIf c).cfg = s.cfg := rfl
@[simp] theorem skipIf_tickStep (c : Bool) : (s.skipIf c).tickStep = s.tickStep := rfl
@[simp] theorem skipIf_host (c : Bool) : (s.skipIf c).host = s.host := rfl
@[simp] theorem skipIf_rndIn (c : Bool) : (s.skipIf c).rndIn = s.rndIn := rfl
@[simp] theorem skipIf_draws (c : Bool) : (s.skipIf c).draws = s.draws := rfl
@[simp] theorem skipIf_byteAt (c : Bool) (n : Nat) : (s.skipIf c).byteAt n = s.byteAt n := rfl
@[simp] theorem skipIf_reg (c : Bool) (k : Reg) : (s.skipIf c).reg k = s.reg k := rfl

/-! ### diag -/

@[simp] theorem diag_mem (c : DiagCause) (w : Word) (a : Option Nat) : (s.diag c w a).mem = s.mem := rfl
@[simp] theorem diag_V (c : DiagCause) (w : Word) (a : Option Nat) : (s.diag c w a).V = s.V := rfl
@[simp] theorem diag_I (c : DiagCause) (w : Word) (a : Option Nat) : (s.diag c w a).I = s.I := rfl
@[simp] theorem diag_PC (c : DiagCause) (w : Word) (a : Option Nat) : (s.diag c w a).PC = s.PC := rfl
@[simp] theorem diag_stack (c : DiagCause) (w : Word) (a : Option Nat) : (s.diag c w a).stack = s.stack := rfl
@[simp] theorem diag_SP (c : DiagCause) (w : Word) (a : Option Nat) : (s.diag c w a).SP = s.SP := rfl
@[simp] theorem diag_DT (c : DiagCause) (w : Word) (a : Option Nat) : (s.diag c w a).DT = s.DT := rfl
@[simp] theorem diag_ST (c : DiagCause) (w : Word) (a : Option Nat) : (s.diag c w a).ST = s.ST := rfl
@[simp] theorem diag_key (c : DiagCause) (w : Word) (a : Option Nat) : (s.diag c w a).key = s.key := rfl
@[simp] theorem diag_fb (c : DiagCause) (w : Word) (a : Option Nat) : (s.diag c w a).fb = s.fb := rfl
@[simp] theorem diag_redraw (c : DiagCause) (w : Word) (a : Option Nat) : (s.diag c w a).redraw = s.redraw := rfl
@[simp] theorem diag_run (c : DiagCause) (w : Word) (a : Option Nat) : (s.diag c w a).run = s.run := rfl
@[simp] theorem diag_diaglog (c : DiagCause) (w : Word) (a : Option Nat) : (s.diag c w a).diaglog = s.diaglog ++ [⟨c, s.PC - 2, w, a⟩] := rfl
@[simp] theorem diag_cfg (c : DiagCause) (w : Word) (a : Option Nat) : (s.diag c w a).cfg = s.cfg := rfl
@[simp] theorem diag_tickStep (c : DiagCause) (w : Word) (a : Option Nat) : (s.diag c w a).tickStep = s.tickStep := rfl
@[simp] theorem diag_host (c : DiagCause) (w : Word) (a : Option Nat) : (s.diag c w a).host = s.host := rfl
@[simp] theorem diag_rndIn (c : DiagCause) (w : Word) (a : Option Nat) : (s.diag c w a).rndIn = s.rndIn := rfl
@[simp] theorem diag_draws (c : DiagCause) (w : Word) (a : Option Nat) : (s.diag c w a).draws = s.draws := rfl
@[simp] theorem diag_byteAt (c : DiagCause) (w : Word) (a : Option Nat) (n : Nat) : (s.diag c w a).byteAt n = s.byteAt n := rfl
@[simp] theorem diag_reg (c : DiagCause) (w : Word) (a : Option Nat) (k : Reg) : (s.diag c w a).reg k = s.reg k := rfl

/-! ### takeFault -/

@[simp] theorem takeFault_mem (r : FaultRecord) : (s.takeFault r).mem = s.mem := rfl
@[simp] theorem takeFault_V (r : FaultRecord) : (s.takeFault r).V = s.V := rfl
@[simp] theorem takeFault_I (r : FaultRecord) : (s.takeFault r).I = s.I := rfl
@[simp] theorem takeFault_PC (r : FaultRecord) : (s.takeFault r).PC = r.pc := rfl
@[simp] theorem takeFault_stack (r : FaultRecord) : (s.takeFault r).stack = s.stack := rfl
@[simp] theorem takeFault_SP (r : FaultRecord) : (s.takeFault r).SP = s.SP := rfl
@[simp] theorem takeFault_DT (r : FaultRecord) : (s.takeFault r).DT = s.DT := rfl
@[simp] theorem takeFault_ST (r : FaultRecord) : (s.takeFault r).ST = s.ST := rfl
@[simp] theorem takeFault_key (r : FaultRecord) : (s.takeFault r).key = s.key := rfl
@[simp] theorem takeFault_fb (r : FaultRecord) : (s.takeFault r).fb = s.fb := rfl
@[simp] theorem takeFault_redraw (r : FaultRecord) : (s.takeFault r).redraw = s.redraw := rfl
@[simp] theorem takeFault_run (r : FaultRecord) : (s.takeFault r).run = .faulted r := rfl
@[simp] theorem takeFault_diaglog (r : FaultRecord) : (s.takeFault r).diaglog = s.diaglog := rfl
@[simp] theorem takeFault_cfg (r : FaultRecord) : (s.takeFault r).cfg = s.cfg := rfl
@[simp] theorem takeFault_tickStep (r : FaultRecord) : (s.takeFault r).tickStep = s.tickStep := rfl
@[simp] theorem takeFault_host (r : FaultRecord) : (s.takeFault r).host = s.host := rfl
@[simp] theorem takeFault_rndIn (r : FaultRecord) : (s.takeFault r).rndIn = s.rndIn := rfl
@[simp] theorem takeFault_draws (r : FaultRecord) : (s.takeFault r).draws = s.draws := rfl
@[simp] theorem takeFault_byteAt (r : FaultRecord) (n : Nat) : (s.takeFault r).byteAt n = s.byteAt n := rfl
@[simp] theorem takeFault_reg (r : FaultRecord) (k : Reg) : (s.takeFault r).reg k = s.reg k := rfl

/-! ### raise -/

@[simp] theorem raise_mem (c : FaultCause) (i : Instr) (a : Option Nat) : (s.raise c i a).mem = s.mem := rfl
@[simp] theorem raise_V (c : FaultCause) (i : Instr) (a : Option Nat) : (s.raise c i a).V = s.V := rfl
@[simp] theorem raise_I (c : FaultCause) (i : Instr) (a : Option Nat) : (s.raise c i a).I = s.I := rfl
@[simp] theorem raise_PC (c : FaultCause) (i : Instr) (a : Option Nat) : (s.raise c i a).PC = s.PC - 2 := rfl
@[simp] theorem raise_stack (c : FaultCause) (i : Instr) (a : Option Nat) : (s.raise c i a).stack = s.stack := rfl
@[simp] theorem raise_SP (c : FaultCause) (i : Instr) (a : Option Nat) : (s.raise c i a).SP = s.SP := rfl
@[simp] theorem raise_DT (c : FaultCause) (i : Instr) (a : Option Nat) : (s.raise c i a).DT = s.DT := rfl
@[simp] theorem raise_ST (c : FaultCause) (i : Instr) (a : Option Nat) : (s.raise c i a).ST = s.ST := rfl
@[simp] theorem raise_key (c : FaultCause) (i : Instr) (a : Option Nat) : (s.raise c i a).key = s.key := rfl
@[simp] theorem raise_fb (c : FaultCause) (i : Instr) (a : Option Nat) : (s.raise c i a).fb = s.fb := rfl
@[simp] theorem raise_redraw (c : FaultCause) (i : Instr) (a : Option Nat) : (s.raise c i a).redraw = s.redraw := rfl
@[simp] theorem raise_run (c : FaultCause) (i : Instr) (a : Option Nat) : (s.raise c i a).run = .faulted ⟨c, s.PC - 2, some (encode i), a⟩ := rfl
@[simp] theorem raise_diaglog (c : FaultCause) (i : Instr) (a : Option Nat) : (s.raise c i a).diaglog = s.diaglog := rfl
@[simp] theorem raise_cfg (c : FaultCause) (i : Instr) (a : Option Nat) : (s.raise c i a).cfg = s.cfg := rfl
@[simp] theorem raise_tickStep (c : FaultCause) (i : Instr) (a : Option Nat) : (s.raise c i a).tickStep = s.tickStep := rfl
@[simp] theorem raise_host (c : FaultCause) (i : Instr) (a : Option Nat) : (s.raise c i a).host = s.host := rfl
@[simp] theorem raise_rndIn (c : FaultCause) (i : Instr) (a : Option Nat) : (s.raise c i a).rndIn = s.rndIn := rfl
@[simp] theorem raise_draws (c : FaultCause) (i : Instr) (a : Option Nat) : (s.raise c i a).draws = s.draws := rfl
@[simp] theorem raise_byteAt (c : FaultCause) (i : Instr) (a : Option Nat) (n : Nat) : (s.raise c i a).byteAt n = s.byteAt n := rfl
@[simp] theorem raise_reg (c : FaultCause) (i : Instr) (a : Option Nat) (k : Reg) : (s.raise c i a).reg k = s.reg k := rfl

/-! ### pokeByte -/

@[simp] theorem pokeByte_mem (a : Nat) (v : Byte) : (s.pokeByte a v).mem = Memory.write s.cfg.font s.mem a v := rfl
@[simp] theorem pokeByte_V (a : Nat) (v : Byte) : (s.pokeByte a v).V = s.V := rfl
@[simp] theorem pokeByte_I (a : Nat) (v : Byte) : (s.pokeByte a v).I = s.I := rfl
@[simp] theorem pokeByte_PC (a : Nat) (v : Byte) : (s.pokeByte a v).PC = s.PC := rfl
@[simp] theorem pokeByte_stack (a : Nat) (v : Byte) : (s.pokeByte a v).stack = s.stack := rfl
@[simp] theorem pokeByte_SP (a : Nat) (v : Byte) : (s.pokeByte a v).SP = s.SP := rfl
@[simp] theorem pokeByte_DT (a : Nat) (v : Byte) : (s.pokeByte a v).DT = s.DT := rfl
@[simp] theorem pokeByte_ST (a : Nat) (v : Byte) : (s.pokeByte a v).ST = s.ST := rfl
@[simp] theorem pokeByte_key (a : Nat) (v : Byte) : (s.pokeByte a v).key = s.key := rfl
@[simp] theorem pokeByte_fb (a : Nat) (v : Byte) : (s.pokeByte a v).fb = s.fb := rfl
@[simp] theorem pokeByte_redraw (a : Nat) (v : Byte) : (s.pokeByte a v).redraw = s.redraw := rfl
@[simp] theorem pokeByte_run (a : Nat) (v : Byte) : (s.pokeByte a v).run = s.run := rfl
@[simp] theorem pokeByte_diaglog (a : Nat) (v : Byte) : (s.pokeByte a v).diaglog = s.diaglog := rfl
@[simp] theorem pokeByte_cfg (a : Nat) (v : Byte) : (s.pokeByte a v).cfg = s.cfg := rfl
@[simp] theorem pokeByte_tickStep (a : Nat) (v : Byte) : (s.pokeByte a v).tickStep = s.tickStep := rfl
@[simp] theorem pokeByte_host (a : Nat) (v : Byte) : (s.pokeByte a v).host = s.host := rfl
@[simp] theorem pokeByte_rndIn (a : Nat) (v : Byte) : (s.pokeByte a v).rndIn = s.rndIn := rfl
@[simp] theorem pokeByte_draws (a : Nat) (v : Byte) : (s.pokeByte a v).draws = s.draws := rfl
@[simp] theorem pokeByte_reg (a : Nat) (v : Byte) (k : Reg) : (s.pokeByte a v).reg k = s.reg k := rfl

/-! ### setFlag -/

@[simp] theorem setFlag_mem (b : Bool) : (s.setFlag b).mem = s.mem := rfl
@[simp] theorem setFlag_V (b : Bool) : (s.setFlag b).V = s.V.set VF.val (flagByte b) VF.isLt := rfl
@[simp] theorem setFlag_I (b : Bool) : (s.setFlag b).I = s.I := rfl
@[simp] theorem setFlag_PC (b : Bool) : (s.setFlag b).PC = s.PC := rfl
@[simp] theorem setFlag_stack (b : Bool) : (s.setFlag b).stack = s.stack := rfl
@[simp] theorem setFlag_SP (b : Bool) : (s.setFlag b).SP = s.SP := rfl
@[simp] theorem setFlag_DT (b : Bool) : (s.setFlag b).DT = s.DT := rfl
@[simp] theorem setFlag_ST (b : Bool) : (s.setFlag b).ST = s.ST := rfl
@[simp] theorem setFlag_key (b : Bool) : (s.setFlag b).key = s.key := rfl
@[simp] theorem setFlag_fb (b : Bool) : (s.setFlag b).fb = s.fb := rfl
@[simp] theorem setFlag_redraw (b : Bool) : (s.setFlag b).redraw = s.redraw := rfl
@[simp] theorem setFlag_run (b : Bool) : (s.setFlag b).run = s.run := rfl
@[simp] theorem setFlag_diaglog (b : Bool) : (s.setFlag b).diaglog = s.diaglog := rfl
@[simp] theorem setFlag_cfg (b : Bool) : (s.setFlag b).cfg = s.cfg := rfl
@[simp] theorem setFlag_tickStep (b : Bool) : (s.setFlag b).tickStep = s.tickStep := rfl
@[simp] theorem setFlag_host (b : Bool) : (s.setFlag b).host = s.host := rfl
@[simp] theorem setFlag_rndIn (b : Bool) : (s.setFlag b).rndIn = s.rndIn := rfl
@[simp] theorem setFlag_draws (b : Bool) : (s.setFlag b).draws = s.draws := rfl
@[simp] theorem setFlag_byteAt (b : Bool) (n : Nat) : (s.setFlag b).byteAt n = s.byteAt n := rfl

/-! ### setRegFlag -/

@[simp] theorem setRegFlag_mem (x : Reg) (v : Byte) (b : Bool) : (s.setRegFlag x v b).mem = s.mem := rfl
@[simp] theorem setRegFlag_V (x : Reg) (v : Byte) (b : Bool) : (s.setRegFlag x v b).V = (s.V.set x.val v x.isLt).set VF.val (flagByte b) VF.isLt := rfl
@[simp] theorem setRegFlag_I (x : Reg) (v : Byte) (b : Bool) : (s.setRegFlag x v b).I = s.I := rfl
@[simp] theorem setRegFlag_PC (x : Reg) (v : Byte) (b : Bool) : (s.setRegFlag x v b).PC = s.PC := rfl
@[simp] theorem setRegFlag_stack (x : Reg) (v : Byte) (b : Bool) : (s.setRegFlag x v b).stack = s.stack := rfl
@[simp] theorem setRegFlag_SP (x : Reg) (v : Byte) (b : Bool) : (s.setRegFlag x v b).SP = s.SP := rfl
@[simp] theorem setRegFlag_DT (x : Reg) (v : Byte) (b : Bool) : (s.setRegFlag x v b).DT = s.DT := rfl
@[simp] theorem setRegFlag_ST (x : Reg) (v : Byte) (b : Bool) : (s.setRegFlag x v b).ST = s.ST := rfl
@[simp] theorem setRegFlag_key (x : Reg) (v : Byte) (b : Bool) : (s.setRegFlag x v b).key = s.key := rfl
@[simp] theorem setRegFlag_fb (x : Reg) (v : Byte) (b : Bool) : (s.setRegFlag x v b).fb = s.fb := rfl
@[simp] theorem setRegFlag_redraw (x : Reg) (v : Byte) (b : Bool) : (s.setRegFlag x v b).redraw = s.redraw := rfl
@[simp] theorem setRegFlag_run (x : Reg) (v : Byte) (b : Bool) : (s.setRegFlag x v b).run = s.run := rfl
@[simp] theorem setRegFlag_diaglog (x : Reg) (v : Byte) (b : Bool) : (s.setRegFlag x v b).diaglog = s.diaglog := rfl
@[simp] theorem setRegFlag_cfg (x : Reg) (v : Byte) (b : Bool) : (s.setRegFlag x v b).cfg = s.cfg := rfl
@[simp] theorem setRegFlag_tickStep (x : Reg) (v : Byte) (b : Bool) : (s.setRegFlag x v b).tickStep = s.tickStep := rfl
@[simp] theorem setRegFlag_host (x : Reg) (v : Byte) (b : Bool) : (s.setRegFlag x v b).host = s.host := rfl
@[simp] theorem setRegFlag_rndIn (x : Reg) (v : Byte) (b : Bool) : (s.setRegFlag x v b).rndIn = s.rndIn := rfl
@[simp] theorem setRegFlag_draws (x : Reg) (v : Byte) (b : Bool) : (s.setRegFlag x v b).draws = s.draws := rfl
@[simp] theorem setRegFlag_byteAt (x : Reg) (v : Byte) (b : Bool) (n : Nat) : (s.setRegFlag x v b).byteAt n = s.byteAt n := rfl

/-! ### decTimers -/

@[simp] theorem decTimers_mem : (s.decTimers).mem = s.mem := rfl
@[simp] theorem decTimers_V : (s.decTimers).V = s.V := rfl
@[simp] theorem decTimers_I : (s.decTimers).I = s.I := rfl
@[simp] theorem decTimers_PC : (s.decTimers).PC = s.PC := rfl
@[simp] theorem decTimers_stack : (s.decTimers).stack = s.stack := rfl
@[simp] theorem decTimers_SP : (s.decTimers).SP = s.SP := rfl
@[simp] theorem decTimers_DT : (s.decTimers).DT = State.countDown s.DT := rfl
@[simp] theorem decTimers_ST : (s.decTimers).ST = State.countDown s.ST := rfl
@[simp] theorem decTimers_key : (s.decTimers).key = s.key := rfl
@[simp] theorem decTimers_fb : (s.decTimers).fb = s.fb := rfl
@[simp] theorem decTimers_redraw : (s.decTimers).redraw = s.redraw := rfl
@[simp] theorem decTimers_run : (s.decTimers).run = s.run := rfl
@[simp] theorem decTimers_diaglog : (s.decTimers).diaglog = s.diaglog := rfl
@[simp] theorem decTimers_cfg : (s.decTimers).cfg = s.cfg := rfl
@[simp] theorem decTimers_tickStep : (s.decTimers).tickStep = s.tickStep := rfl
@[simp] theorem decTimers_host : (s.decTimers).host = s.host := rfl
@[simp] theorem decTimers_rndIn : (s.decTimers).rndIn = s.rndIn := rfl
@[simp] theorem decTimers_draws : (s.decTimers).draws = s.draws := rfl
@[simp] theorem decTimers_byteAt (n : Nat) : (s.decTimers).byteAt n = s.byteAt n := rfl
@[simp] theorem decTimers_reg (k : Reg) : (s.decTimers).reg k = s.reg k := rfl

end Sys2Proof.Machine.State
end

