-- ==== Sys2Proof/Laws/Memory.lean ====
section
/-! SUPPORT. Laws of memory: read after write, and that every memory operation keeps the canonical
form. -/

namespace Sys2Proof.Machine.Memory

variable {font : Font} {m : Memory} {a b : Nat} {v : Byte}

/-! ## Lookup against insert and erase -/

theorem lookup_eq_none_of_forall_ne (h : ∀ c ∈ m, c.1 ≠ a) : lookup m a = none := by
  induction m with
  | nil => rfl
  | cons c m ih =>
    obtain ⟨k, w⟩ := c
    have hk : a ≠ k := fun e => h (k, w) (by simp) e.symm
    simpa [lookup, hk] using ih fun c hc => h c (by simp [hc])

theorem lookup_insert_self : lookup (insert m a v) a = some v := by
  induction m with
  | nil => simp [insert, lookup]
  | cons c m ih =>
    obtain ⟨k, w⟩ := c
    by_cases h1 : a < k
    · simp [insert, lookup, h1]
    · by_cases h2 : a = k
      · simp [insert, lookup, h2]
      · simp [insert, lookup, h1, h2, ih]

theorem lookup_insert_of_ne (h : b ≠ a) : lookup (insert m a v) b = lookup m b := by
  induction m with
  | nil => simp [insert, lookup, h]
  | cons c m ih =>
    obtain ⟨k, w⟩ := c
    by_cases h1 : a < k
    · simp [insert, lookup, h1, h]
    · by_cases h2 : a = k
      · subst h2; simp [insert, lookup, h]
      · simp [insert, lookup, h1, h2, ih]

theorem lookup_erase_of_ne (h : b ≠ a) : lookup (erase m a) b = lookup m b := by
  induction m with
  | nil => rfl
  | cons c m ih =>
    obtain ⟨k, w⟩ := c
    by_cases h2 : a = k
    · subst h2; simp [erase, lookup, h, ih]
    · simp [erase, lookup, h2, ih]

theorem lookup_erase_self : lookup (erase m a) a = none := by
  induction m with
  | nil => rfl
  | cons c m ih =>
    obtain ⟨k, w⟩ := c
    by_cases h2 : a = k
    · simpa [erase, h2] using h2 ▸ ih
    · simpa [erase, lookup, h2] using ih

/-! ## Read after write -/

/-- A write reads back. -/
theorem read_write_self :
    read font (write font m a v) a = v := by
  unfold write read
  split
  · simp [lookup_erase_self, *]
  · simp [lookup_insert_self]

/-- A write leaves every other address alone. -/
theorem read_write_of_ne (h : b ≠ a) : read font (write font m a v) b = read font m b := by
  unfold write read
  split
  · rw [lookup_erase_of_ne h]
  · rw [lookup_insert_of_ne h]

/-! ## The canonical form -/

theorem mem_erase_subset {c : Host.Cell} (h : c ∈ erase m a) : c ∈ m := by
  induction m with
  | nil => exact h
  | cons d m ih =>
    obtain ⟨k, w⟩ := d
    by_cases h2 : a = k
    · simp only [erase, h2, if_true] at h; exact List.mem_cons_of_mem _ (ih (h2 ▸ h))
    · simp only [erase, h2, if_false, List.mem_cons] at h
      rcases h with rfl | h
      · simp
      · exact List.mem_cons_of_mem _ (ih h)

theorem mem_insert {c : Host.Cell} (h : c ∈ insert m a v) : c = (a, v) ∨ c ∈ m := by
  induction m with
  | nil => simpa [insert] using h
  | cons d m ih =>
    obtain ⟨k, w⟩ := d
    by_cases h1 : a < k
    · simpa [insert, h1] using h
    · by_cases h2 : a = k
      · simp only [insert, h2, lt_irrefl, if_false, if_true, List.mem_cons] at h ⊢
        tauto
      · simp only [insert, h1, h2, if_false, List.mem_cons] at h ⊢
        rcases h with h | h
        · exact .inr (.inl h)
        · have := ih h; tauto

theorem pairwise_erase (hm : m.Pairwise fun c d => c.1 < d.1) :
    (erase m a).Pairwise fun c d => c.1 < d.1 := by
  induction m with
  | nil => exact hm
  | cons c m ih =>
    obtain ⟨k, w⟩ := c
    rw [List.pairwise_cons] at hm
    by_cases h2 : a = k
    · simpa [erase, h2] using h2 ▸ ih hm.2
    · simp only [erase, h2, if_false, List.pairwise_cons]
      exact ⟨fun d hd => hm.1 d (mem_erase_subset hd), ih hm.2⟩

theorem pairwise_insert (hm : m.Pairwise fun c d => c.1 < d.1) :
    (insert m a v).Pairwise fun c d => c.1 < d.1 := by
  induction m with
  | nil => simp [insert]
  | cons c m ih =>
    obtain ⟨k, w⟩ := c
    have hm' := List.pairwise_cons.mp hm
    by_cases h1 : a < k
    · simp only [insert, h1, if_true]
      refine List.pairwise_cons.mpr ⟨fun d hd => ?_, hm⟩
      rcases List.mem_cons.mp hd with rfl | hd
      · exact h1
      · exact h1.trans (hm'.1 d hd)
    · by_cases h2 : a = k
      · subst h2; simpa [insert] using hm
      · simp only [insert, h1, h2, if_false]
        refine List.pairwise_cons.mpr ⟨fun d hd => ?_, ih hm'.2⟩
        rcases mem_insert hd with rfl | hd
        · exact lt_of_le_of_ne (not_lt.mp h1) (Ne.symm h2)
        · exact hm'.1 d hd

/-- A write inside the memory keeps the canonical form. -/
theorem wf_write (hm : wf font m) (ha : a < Config.memSize) : wf font (write font m a v) := by
  unfold write
  split
  · exact ⟨pairwise_erase hm.1, fun c hc => hm.2 c (mem_erase_subset hc)⟩
  · rename_i hv
    refine ⟨pairwise_insert hm.1, fun c hc => ?_⟩
    rcases mem_insert hc with rfl | hc
    · exact ⟨ha, hv⟩
    · exact hm.2 c hc

/-! ## The ROM image -/

theorem le_of_mem_image {bs : List Byte} {c : Host.Cell} (h : c ∈ image font a bs) :
    a ≤ c.1 ∧ c.1 < a + bs.length ∧ c.2 ≠ unlisted font c.1 := by
  induction bs generalizing a with
  | nil => simp [image] at h
  | cons b bs ih =>
    simp only [image] at h
    split at h
    · have := ih h; simp only [List.length_cons]; exact ⟨by omega, by omega, this.2.2⟩
    · rename_i hb
      rcases List.mem_cons.mp h with rfl | h
      · exact ⟨le_rfl, by simp, hb⟩
      · have := ih h; simp only [List.length_cons]; exact ⟨by omega, by omega, this.2.2⟩

/-- The image of a ROM that fits is canonical. -/
theorem wf_image {bs : List Byte} (h : a + bs.length ≤ Config.memSize) : wf font (image font a bs) := by
  constructor
  · clear h
    induction bs generalizing a with
    | nil => exact List.Pairwise.nil
    | cons b bs ih =>
      simp only [image]
      split
      · exact ih
      · exact List.pairwise_cons.mpr ⟨fun c hc => (le_of_mem_image hc).1, ih⟩
  · intro c hc
    have := le_of_mem_image hc
    exact ⟨by omega, this.2.2⟩

/-- Outside the image memory reads its reset contents. -/
theorem read_image_of_outside {bs : List Byte} (h : b < a ∨ a + bs.length ≤ b) :
    read font (image font a bs) b = unlisted font b := by
  unfold read
  rw [lookup_eq_none_of_forall_ne fun c hc => ?_]
  · rfl
  · have := le_of_mem_image hc; omega

/-- Inside the image memory reads the ROM's bytes (R182). -/
theorem read_image {bs : List Byte} (i : Nat) (h : i < bs.length) :
    read font (image font a bs) (a + i) = bs[i] := by
  induction bs generalizing a i with
  | nil => simp at h
  | cons b bs ih =>
    cases i with
    | zero =>
      simp only [image, Nat.add_zero, List.getElem_cons_zero]
      split
      · rename_i hb; rw [read_image_of_outside (.inl (Nat.lt_succ_self a))]; exact hb.symm
      · simp [read, lookup]
    | succ i =>
      have ih' := ih (a := a + 1) i (by simpa using h)
      rw [show a + 1 + i = a + (i + 1) by omega] at ih'
      simp only [image, List.getElem_cons_succ]
      split
      · exact ih'
      · rw [← ih']; simp [read, lookup]

end Sys2Proof.Machine.Memory
end

