-- ==== Sys2Proof/Laws/Ops.lean ====
section
/-! SUPPORT. For each shared operation, what it can do, said once; later proofs cite these and do not
unfold the operation. -/

namespace Sys2Proof.Machine

/-! ## Lists of registers -/

@[simp] theorem mem_regsUpTo {x k : Reg} : k ∈ regsUpTo x ↔ k ≤ x := by
  simp only [regsUpTo, List.mem_map, List.mem_range]
  constructor
  · rintro ⟨n, hn, rfl⟩
    simp only [Fin.le_def, Fin.ofNat]
    have := Nat.mod_le n 16
    omega
  · intro h
    have h' : k.val ≤ x.val := h
    exact ⟨k.val, by omega, by simp [Fin.ofNat, Nat.mod_eq_of_lt k.isLt]⟩

@[simp] theorem length_regsUpTo (x : Reg) : (regsUpTo x).length = x.val + 1 := by simp [regsUpTo]

theorem getElem_regsUpTo {x : Reg} {n : Nat} (h : n < (regsUpTo x).length) :
    ((regsUpTo x)[n]).val = n := by
  have hx : n < x.val + 1 := by simpa using h
  simp [regsUpTo, Fin.ofNat, Nat.mod_eq_of_lt (show n < 16 by omega)]

namespace State

variable {s t : State} {x k : Reg} {v : Byte} {i : Instr}

/-! ## Registers -/

theorem setReg_reg (s : State) (x : Reg) (v : Byte) (k : Reg) :
    (s.setReg x v).reg k = if k = x then v else s.reg k := by
  simp only [reg, setReg, Vector.getElem_set, Fin.ext_iff, eq_comm (a := x.val)]

@[simp] theorem setReg_reg_self (s : State) (x : Reg) (v : Byte) : (s.setReg x v).reg x = v := by
  simp [setReg_reg]

theorem setReg_reg_of_ne (s : State) (v : Byte) (h : k ≠ x) : (s.setReg x v).reg k = s.reg k := by
  simp [setReg_reg, h]

theorem setFlag_reg (s : State) (b : Bool) (k : Reg) :
    (s.setFlag b).reg k = if k = VF then flagByte b else s.reg k := setReg_reg s VF _ k

/-- The flag is written last (R110): VF holds the flag, Vx its result unless x = F. -/
theorem setRegFlag_reg (s : State) (x : Reg) (v : Byte) (b : Bool) (k : Reg) :
    (s.setRegFlag x v b).reg k = if k = VF then flagByte b else if k = x then v else s.reg k := by
  simp only [setRegFlag, setFlag_reg, setReg_reg]

/-! ## The call stack -/

/-- CALL's push succeeds below 16 entries (R94). -/
theorem push_of_lt (h : s.SP.val < 16) (v : Word) :
    s.push v = some { s with stack := s.stack.set s.SP.val v h, SP := ⟨s.SP.val + 1, by omega⟩ } := by
  simp [push, h]

/-- CALL's push fails with all 16 entries in use (R94). -/
theorem push_of_full (h : s.SP = 16) (v : Word) : s.push v = none := by
  simp [push, h]

/-- RET's pop succeeds with an entry in use (R92). -/
theorem pop_of_pos (h : 0 < s.SP.val) :
    s.pop = some (s.stack[s.SP.val - 1]'(by omega), { s with SP := ⟨s.SP.val - 1, by omega⟩ }) := by
  simp [pop, h]

/-- RET's pop fails with no entry in use (R92). -/
theorem pop_of_empty (h : s.SP = 0) : s.pop = none := by
  simp [pop, h]

/-! ## The data range (R59) -/

/-- The range check passes exactly when the range is empty or ends inside the memory. -/
theorem rangeFault_eq_none {n : Nat} : s.rangeFault n = none ↔ n = 0 ∨ s.I.toNat + n ≤ 0x1000 := by
  unfold rangeFault
  split <;> simp <;> omega

/-- The range check names the first address above 0xFFF. -/
theorem rangeFault_eq_some {n a : Nat} :
    s.rangeFault n = some a ↔ (1 ≤ n ∧ 0x1000 < s.I.toNat + n) ∧ a = max s.I.toNat 0x1000 := by
  unfold rangeFault
  split
  · simp only [Option.some.injEq, eq_comm (b := a)]
    exact ⟨fun h => ⟨by omega, h⟩, fun h => h.2⟩
  · simp only [reduceCtorEq, false_iff, not_and]; intro h; omega

/-! ## Checked stores (R54) -/

/-- A checked store drops the byte with a diagnostic or stores it, and does nothing else. -/
theorem memWrite_cases (s : State) (i : Instr) (a : Nat) (v : Byte) :
    (a ≤ s.cfg.wpTop.toNat ∧ s.memWrite i a v = s.diag .wprot (encode i) (some a)) ∨
    (s.cfg.wpTop.toNat < a ∧ s.memWrite i a v = s.pokeByte a v) := by
  unfold memWrite
  split
  · exact .inl ⟨‹_›, rfl⟩
  · exact .inr ⟨by omega, rfl⟩

/-- A checked store writes memory and the diagnostic log only. -/
theorem memWrite_frame (s : State) (i : Instr) (a : Nat) (v : Byte) :
    s.memWrite i a v =
      { s with mem := (s.memWrite i a v).mem, diaglog := (s.memWrite i a v).diaglog } := by
  rcases memWrite_cases s i a v with ⟨-, h⟩ | ⟨-, h⟩ <;> rw [h] <;> rfl

theorem pokeByte_byteAt (s : State) (a : Nat) (v : Byte) (n : Nat) :
    (s.pokeByte a v).byteAt n = if n = a then v else s.byteAt n := by
  simp only [byteAt, pokeByte_mem, pokeByte_cfg]
  split
  · rename_i h; rw [h, Memory.read_write_self]
  · rename_i h; rw [Memory.read_write_of_ne h]

theorem memWrite_byteAt (s : State) (i : Instr) (a : Nat) (v : Byte) (n : Nat) :
    (s.memWrite i a v).byteAt n = if n = a ∧ s.cfg.wpTop.toNat < a then v else s.byteAt n := by
  rcases memWrite_cases s i a v with ⟨h, e⟩ | ⟨h, e⟩ <;> rw [e]
  · simp [show ¬ s.cfg.wpTop.toNat < a by omega]
  · simp [h, pokeByte_byteAt]

theorem memWrite_wf {a : Nat} (h : Memory.wf s.cfg.font s.mem) (ha : a < Config.memSize) :
    Memory.wf (s.memWrite i a v).cfg.font (s.memWrite i a v).mem := by
  rcases memWrite_cases s i a v with ⟨-, e⟩ | ⟨-, e⟩ <;> rw [e]
  · exact h
  · exact Memory.wf_write h ha

/-- A sequence of checked stores writes memory and the diagnostic log only. -/
theorem storeBytes_frame (i : Instr) (s : State) (a : Nat) (bs : List Byte) :
    storeBytes i s a bs =
      { s with mem := (storeBytes i s a bs).mem, diaglog := (storeBytes i s a bs).diaglog } := by
  induction bs generalizing s a with
  | nil => rfl
  | cons b bs ih =>
    simp only [storeBytes]
    rw [ih]
    rcases memWrite_cases s i a b with ⟨-, h⟩ | ⟨-, h⟩ <;> rw [h] <;> rfl

/-- What memory reads after a sequence of checked stores: the stored byte at each address of the range
above `WP_TOP`, the old byte elsewhere. -/
theorem storeBytes_byteAt (i : Instr) (s : State) (a : Nat) (bs : List Byte) (n : Nat) :
    (storeBytes i s a bs).byteAt n =
      if h : (a ≤ n ∧ n - a < bs.length) ∧ s.cfg.wpTop.toNat < n then bs[n - a]'h.1.2
      else s.byteAt n := by
  induction bs generalizing s a with
  | nil => simp [storeBytes]
  | cons b bs ih =>
    have hc : (s.memWrite i a b).cfg = s.cfg := by rw [memWrite_frame]
    simp only [storeBytes, ih, hc, memWrite_byteAt, List.length_cons]
    by_cases hn : n = a
    · subst hn
      simp only [le_refl, Nat.sub_self, true_and, Nat.zero_lt_succ, List.getElem_cons_zero]
      simp only [show ¬ (n + 1 ≤ n) by omega, false_and, dite_false]
      split <;> simp [*]
    · simp only [hn, false_and, if_false]
      by_cases h1 : a ≤ n
      · have e : n - a = (n - (a + 1)) + 1 := by omega
        simp only [e, List.getElem_cons_succ, h1, show a + 1 ≤ n by omega, true_and,
          Nat.add_lt_add_iff_right]
      · simp only [h1, show ¬ a + 1 ≤ n by omega, false_and, dite_false]

/-- The records a sequence of stores emits: one for each dropped byte, in ascending address order
(R54, R169). -/
def wprotRecords (s : State) (i : Instr) (a len : Nat) : List DiagRecord :=
  ((List.range' a len).filter fun n => decide (n ≤ s.cfg.wpTop.toNat)).map fun n =>
    ⟨.wprot, s.PC - 2, encode i, some n⟩

theorem storeBytes_diaglog (i : Instr) (s : State) (a : Nat) (bs : List Byte) :
    (storeBytes i s a bs).diaglog = s.diaglog ++ wprotRecords s i a bs.length := by
  induction bs generalizing s a with
  | nil => simp [storeBytes, wprotRecords]
  | cons b bs ih =>
    simp only [storeBytes, ih, List.length_cons, wprotRecords, List.range'_succ, List.filter_cons]
    rcases memWrite_cases s i a b with ⟨h, e⟩ | ⟨h, e⟩ <;> rw [e]
    · simp only [h, decide_true, if_true, diag_diaglog, List.append_assoc, List.map_cons]
      rfl
    · simp only [show ¬ a ≤ s.cfg.wpTop.toNat by omega, decide_false, Bool.false_eq_true, if_false,
        pokeByte_diaglog]
      rfl

theorem storeBytes_wf {a : Nat} {bs : List Byte} (h : Memory.wf s.cfg.font s.mem)
    (ha : a + bs.length ≤ Config.memSize) :
    Memory.wf (storeBytes i s a bs).cfg.font (storeBytes i s a bs).mem := by
  induction bs generalizing s a with
  | nil => exact h
  | cons b bs ih =>
    simp only [List.length_cons] at ha
    exact ih (memWrite_wf h (by omega)) (by omega)

/-! ## Block load (R152) -/

/-- A block load writes the general registers only. -/
theorem loadRegs_frame (s : State) (ks : List Reg) : s.loadRegs ks = { s with V := (s.loadRegs ks).V } := by
  induction ks generalizing s with
  | nil => rfl
  | cons k ks ih =>
    simp only [loadRegs, List.foldl_cons] at ih ⊢
    rw [ih]; rfl

/-- Each loaded register holds the byte at I + its index; the others keep theirs. -/
theorem loadRegs_reg (s : State) (ks : List Reg) (k : Reg) :
    (s.loadRegs ks).reg k = if k ∈ ks then s.byteAt (s.I.toNat + k.val) else s.reg k := by
  induction ks generalizing s with
  | nil => simp [loadRegs]
  | cons j ks ih =>
    simp only [loadRegs, List.foldl_cons] at ih ⊢
    rw [ih]
    simp only [setReg_byteAt, setReg_I, setReg_reg, List.mem_cons]
    by_cases hk : k ∈ ks
    · simp [hk]
    · by_cases hj : k = j
      · subst hj; simp
      · simp [hk, hj]

/-! ## The random source (R7) -/

/-- A draw takes the next ready byte, or a free value, and changes nothing of the core. -/
theorem drawRnd_cases (s : State) :
    (∃ b rest, s.rndIn = b :: rest ∧ s.drawRnd = (b, { s with rndIn := rest })) ∨
    (s.rndIn = [] ∧ s.drawRnd = (Config.rndByte s.draws, { s with draws := s.draws + 1 })) := by
  unfold drawRnd
  split
  · rename_i b rest h; exact .inl ⟨b, rest, h, rfl⟩
  · rename_i h; exact .inr ⟨h, rfl⟩

theorem drawRnd_frame (s : State) :
    s.drawRnd.2 = { s with rndIn := s.drawRnd.2.rndIn, draws := s.drawRnd.2.draws } := by
  rcases drawRnd_cases s with ⟨b, rest, -, h⟩ | ⟨-, h⟩ <;> rw [h]

/-! ## Keys (R143, R145) -/

theorem keyAt_of_le (h : v.toNat < 16) : s.keyAt v = some (s.key[v.toNat]'h) := by simp [keyAt, h]

theorem keyAt_of_gt (h : 0xF < v.toNat) : s.keyAt v = none := by
  simp [keyAt, show ¬ v.toNat < 16 by omega]

theorem leastKey_eq_none : s.leastKey = none ↔ ∀ k : Reg, s.key[k.val]'k.isLt = false := by
  simp only [leastKey, List.find?_eq_none, mem_regsUpTo, Bool.not_eq_true]
  exact ⟨fun h k => h k (Fin.le_last k), fun h k _ => h k⟩

/-- The key found is pressed and every lower one is not. -/
theorem leastKey_eq_some {k : Reg} :
    s.leastKey = some k ↔ s.key[k.val]'k.isLt = true ∧ ∀ j < k, s.key[j.val]'j.isLt = false := by
  simp only [leastKey, List.find?_eq_some_iff_getElem, length_regsUpTo]
  constructor
  · rintro ⟨hk, n, hn, e, hlt⟩
    refine ⟨hk, fun j hj => ?_⟩
    have hv : n = k.val := by rw [← e, getElem_regsUpTo]
    have hjn : j.val < n := by rw [hv]; exact hj
    have := hlt j.val hjn
    have ej : (regsUpTo 15)[j.val]'(by simp) = j := Fin.ext (getElem_regsUpTo _)
    simpa [ej] using this
  · rintro ⟨hk, hlt⟩
    refine ⟨hk, k.val, by simp, Fin.ext (getElem_regsUpTo _), fun n hn => ?_⟩
    have := hlt ⟨n, by omega⟩ hn
    have en : (regsUpTo 15)[n]'(by simp; omega) = ⟨n, by omega⟩ := Fin.ext (getElem_regsUpTo _)
    simp only [en, this, Bool.not_false]

/-! ## The fields a checked store, a block load and a draw leave alone -/

@[simp] theorem memWrite_V (s : State) (i : Instr) (a : Nat) (v : Byte) : (s.memWrite i a v).V = s.V := by rw [memWrite_frame]
@[simp] theorem memWrite_I (s : State) (i : Instr) (a : Nat) (v : Byte) : (s.memWrite i a v).I = s.I := by rw [memWrite_frame]
@[simp] theorem memWrite_PC (s : State) (i : Instr) (a : Nat) (v : Byte) : (s.memWrite i a v).PC = s.PC := by rw [memWrite_frame]
@[simp] theorem memWrite_stack (s : State) (i : Instr) (a : Nat) (v : Byte) : (s.memWrite i a v).stack = s.stack := by rw [memWrite_frame]
@[simp] theorem memWrite_SP (s : State) (i : Instr) (a : Nat) (v : Byte) : (s.memWrite i a v).SP = s.SP := by rw [memWrite_frame]
@[simp] theorem memWrite_DT (s : State) (i : Instr) (a : Nat) (v : Byte) : (s.memWrite i a v).DT = s.DT := by rw [memWrite_frame]
@[simp] theorem memWrite_ST (s : State) (i : Instr) (a : Nat) (v : Byte) : (s.memWrite i a v).ST = s.ST := by rw [memWrite_frame]
@[simp] theorem memWrite_key (s : State) (i : Instr) (a : Nat) (v : Byte) : (s.memWrite i a v).key = s.key := by rw [memWrite_frame]
@[simp] theorem memWrite_fb (s : State) (i : Instr) (a : Nat) (v : Byte) : (s.memWrite i a v).fb = s.fb := by rw [memWrite_frame]
@[simp] theorem memWrite_redraw (s : State) (i : Instr) (a : Nat) (v : Byte) : (s.memWrite i a v).redraw = s.redraw := by rw [memWrite_frame]
@[simp] theorem memWrite_run (s : State) (i : Instr) (a : Nat) (v : Byte) : (s.memWrite i a v).run = s.run := by rw [memWrite_frame]
@[simp] theorem memWrite_cfg (s : State) (i : Instr) (a : Nat) (v : Byte) : (s.memWrite i a v).cfg = s.cfg := by rw [memWrite_frame]
@[simp] theorem memWrite_tickStep (s : State) (i : Instr) (a : Nat) (v : Byte) : (s.memWrite i a v).tickStep = s.tickStep := by rw [memWrite_frame]
@[simp] theorem memWrite_host (s : State) (i : Instr) (a : Nat) (v : Byte) : (s.memWrite i a v).host = s.host := by rw [memWrite_frame]
@[simp] theorem memWrite_rndIn (s : State) (i : Instr) (a : Nat) (v : Byte) : (s.memWrite i a v).rndIn = s.rndIn := by rw [memWrite_frame]
@[simp] theorem memWrite_draws (s : State) (i : Instr) (a : Nat) (v : Byte) : (s.memWrite i a v).draws = s.draws := by rw [memWrite_frame]

@[simp] theorem storeBytes_V (s : State) (i : Instr) (a : Nat) (bs : List Byte) : (storeBytes i s a bs).V = s.V := by rw [storeBytes_frame]
@[simp] theorem storeBytes_I (s : State) (i : Instr) (a : Nat) (bs : List Byte) : (storeBytes i s a bs).I = s.I := by rw [storeBytes_frame]
@[simp] theorem storeBytes_PC (s : State) (i : Instr) (a : Nat) (bs : List Byte) : (storeBytes i s a bs).PC = s.PC := by rw [storeBytes_frame]
@[simp] theorem storeBytes_stack (s : State) (i : Instr) (a : Nat) (bs : List Byte) : (storeBytes i s a bs).stack = s.stack := by rw [storeBytes_frame]
@[simp] theorem storeBytes_SP (s : State) (i : Instr) (a : Nat) (bs : List Byte) : (storeBytes i s a bs).SP = s.SP := by rw [storeBytes_frame]
@[simp] theorem storeBytes_DT (s : State) (i : Instr) (a : Nat) (bs : List Byte) : (storeBytes i s a bs).DT = s.DT := by rw [storeBytes_frame]
@[simp] theorem storeBytes_ST (s : State) (i : Instr) (a : Nat) (bs : List Byte) : (storeBytes i s a bs).ST = s.ST := by rw [storeBytes_frame]
@[simp] theorem storeBytes_key (s : State) (i : Instr) (a : Nat) (bs : List Byte) : (storeBytes i s a bs).key = s.key := by rw [storeBytes_frame]
@[simp] theorem storeBytes_fb (s : State) (i : Instr) (a : Nat) (bs : List Byte) : (storeBytes i s a bs).fb = s.fb := by rw [storeBytes_frame]
@[simp] theorem storeBytes_redraw (s : State) (i : Instr) (a : Nat) (bs : List Byte) : (storeBytes i s a bs).redraw = s.redraw := by rw [storeBytes_frame]
@[simp] theorem storeBytes_run (s : State) (i : Instr) (a : Nat) (bs : List Byte) : (storeBytes i s a bs).run = s.run := by rw [storeBytes_frame]
@[simp] theorem storeBytes_cfg (s : State) (i : Instr) (a : Nat) (bs : List Byte) : (storeBytes i s a bs).cfg = s.cfg := by rw [storeBytes_frame]
@[simp] theorem storeBytes_tickStep (s : State) (i : Instr) (a : Nat) (bs : List Byte) : (storeBytes i s a bs).tickStep = s.tickStep := by rw [storeBytes_frame]
@[simp] theorem storeBytes_host (s : State) (i : Instr) (a : Nat) (bs : List Byte) : (storeBytes i s a bs).host = s.host := by rw [storeBytes_frame]
@[simp] theorem storeBytes_rndIn (s : State) (i : Instr) (a : Nat) (bs : List Byte) : (storeBytes i s a bs).rndIn = s.rndIn := by rw [storeBytes_frame]
@[simp] theorem storeBytes_draws (s : State) (i : Instr) (a : Nat) (bs : List Byte) : (storeBytes i s a bs).draws = s.draws := by rw [storeBytes_frame]

@[simp] theorem loadRegs_mem (s : State) (ks : List Reg) : (s.loadRegs ks).mem = s.mem := by rw [loadRegs_frame]
@[simp] theorem loadRegs_I (s : State) (ks : List Reg) : (s.loadRegs ks).I = s.I := by rw [loadRegs_frame]
@[simp] theorem loadRegs_PC (s : State) (ks : List Reg) : (s.loadRegs ks).PC = s.PC := by rw [loadRegs_frame]
@[simp] theorem loadRegs_stack (s : State) (ks : List Reg) : (s.loadRegs ks).stack = s.stack := by rw [loadRegs_frame]
@[simp] theorem loadRegs_SP (s : State) (ks : List Reg) : (s.loadRegs ks).SP = s.SP := by rw [loadRegs_frame]
@[simp] theorem loadRegs_DT (s : State) (ks : List Reg) : (s.loadRegs ks).DT = s.DT := by rw [loadRegs_frame]
@[simp] theorem loadRegs_ST (s : State) (ks : List Reg) : (s.loadRegs ks).ST = s.ST := by rw [loadRegs_frame]
@[simp] theorem loadRegs_key (s : State) (ks : List Reg) : (s.loadRegs ks).key = s.key := by rw [loadRegs_frame]
@[simp] theorem loadRegs_fb (s : State) (ks : List Reg) : (s.loadRegs ks).fb = s.fb := by rw [loadRegs_frame]
@[simp] theorem loadRegs_redraw (s : State) (ks : List Reg) : (s.loadRegs ks).redraw = s.redraw := by rw [loadRegs_frame]
@[simp] theorem loadRegs_run (s : State) (ks : List Reg) : (s.loadRegs ks).run = s.run := by rw [loadRegs_frame]
@[simp] theorem loadRegs_diaglog (s : State) (ks : List Reg) : (s.loadRegs ks).diaglog = s.diaglog := by rw [loadRegs_frame]
@[simp] theorem loadRegs_cfg (s : State) (ks : List Reg) : (s.loadRegs ks).cfg = s.cfg := by rw [loadRegs_frame]
@[simp] theorem loadRegs_tickStep (s : State) (ks : List Reg) : (s.loadRegs ks).tickStep = s.tickStep := by rw [loadRegs_frame]
@[simp] theorem loadRegs_host (s : State) (ks : List Reg) : (s.loadRegs ks).host = s.host := by rw [loadRegs_frame]
@[simp] theorem loadRegs_rndIn (s : State) (ks : List Reg) : (s.loadRegs ks).rndIn = s.rndIn := by rw [loadRegs_frame]
@[simp] theorem loadRegs_draws (s : State) (ks : List Reg) : (s.loadRegs ks).draws = s.draws := by rw [loadRegs_frame]

@[simp] theorem drawRnd_mem (s : State) : (s.drawRnd.2).mem = s.mem := by rw [drawRnd_frame]
@[simp] theorem drawRnd_V (s : State) : (s.drawRnd.2).V = s.V := by rw [drawRnd_frame]
@[simp] theorem drawRnd_I (s : State) : (s.drawRnd.2).I = s.I := by rw [drawRnd_frame]
@[simp] theorem drawRnd_PC (s : State) : (s.drawRnd.2).PC = s.PC := by rw [drawRnd_frame]
@[simp] theorem drawRnd_stack (s : State) : (s.drawRnd.2).stack = s.stack := by rw [drawRnd_frame]
@[simp] theorem drawRnd_SP (s : State) : (s.drawRnd.2).SP = s.SP := by rw [drawRnd_frame]
@[simp] theorem drawRnd_DT (s : State) : (s.drawRnd.2).DT = s.DT := by rw [drawRnd_frame]
@[simp] theorem drawRnd_ST (s : State) : (s.drawRnd.2).ST = s.ST := by rw [drawRnd_frame]
@[simp] theorem drawRnd_key (s : State) : (s.drawRnd.2).key = s.key := by rw [drawRnd_frame]
@[simp] theorem drawRnd_fb (s : State) : (s.drawRnd.2).fb = s.fb := by rw [drawRnd_frame]
@[simp] theorem drawRnd_redraw (s : State) : (s.drawRnd.2).redraw = s.redraw := by rw [drawRnd_frame]
@[simp] theorem drawRnd_run (s : State) : (s.drawRnd.2).run = s.run := by rw [drawRnd_frame]
@[simp] theorem drawRnd_diaglog (s : State) : (s.drawRnd.2).diaglog = s.diaglog := by rw [drawRnd_frame]
@[simp] theorem drawRnd_cfg (s : State) : (s.drawRnd.2).cfg = s.cfg := by rw [drawRnd_frame]
@[simp] theorem drawRnd_tickStep (s : State) : (s.drawRnd.2).tickStep = s.tickStep := by rw [drawRnd_frame]
@[simp] theorem drawRnd_host (s : State) : (s.drawRnd.2).host = s.host := by rw [drawRnd_frame]

@[simp] theorem storeBytes_reg (s : State) (i : Instr) (a : Nat) (bs : List Byte) (k : Reg) :
    (storeBytes i s a bs).reg k = s.reg k := by simp [reg]

@[simp] theorem loadRegs_byteAt (s : State) (ks : List Reg) (n : Nat) :
    (s.loadRegs ks).byteAt n = s.byteAt n := by simp [byteAt]

@[simp] theorem drawRnd_reg (s : State) (k : Reg) : s.drawRnd.2.reg k = s.reg k := by simp [reg]

@[simp] theorem drawRnd_byteAt (s : State) (n : Nat) : s.drawRnd.2.byteAt n = s.byteAt n := by
  simp [byteAt]

end State

end Sys2Proof.Machine
end

