-- ==== Sys2Proof/Laws/Display.lean ====
section
/-! SUPPORT. The framebuffer: what drawing a sequence of cells does, and which cells a sprite has. -/

namespace Sys2Proof.Machine

namespace Framebuffer

/-- Flipping a pixel toggles it and leaves every other pixel alone. -/
theorem pixel_flip (fb : Framebuffer) (c c' : Fin 64) (r r' : Fin 32) :
    pixel (flip fb c r) c' r' = (pixel fb c' r' ^^ decide ((c, r) = (c', r'))) := by
  simp only [pixel, flip, Prod.mk.injEq]
  by_cases hc : c = c'
  · subst hc
    by_cases hr : r = r'
    · subst hr; simp
    · have hr' : r.val ≠ r'.val := fun h => hr (Fin.ext h)
      simp [hr, Vector.getElem_set_ne _ _ hr']
  · have hc' : c.val ≠ c'.val := fun h => hc (Fin.ext h)
    simp [hc, Vector.getElem_set_ne _ _ hc']

@[simp] theorem pixel_blank (c : Fin 64) (r : Fin 32) : pixel blank c r = false := by
  simp [pixel, blank]

/-- Two framebuffers with the same pixels are equal. -/
theorem ext_pixel {fb fb' : Framebuffer} (h : ∀ c r, pixel fb c r = pixel fb' c r) : fb = fb' := by
  refine Vector.ext fun c hc => Vector.ext fun r hr => ?_
  exact h ⟨c, hc⟩ ⟨r, hr⟩

/-- Drawing cells of which none repeats: each is toggled, and the collision flag is set exactly when one
of them was lit before (R134). -/
theorem foldl_drawCell (cells : List (Fin 64 × Fin 32)) (hn : cells.Nodup) (acc : Framebuffer × Bool) :
    (∀ c r, pixel (cells.foldl drawCell acc).1 c r = (pixel acc.1 c r ^^ decide ((c, r) ∈ cells))) ∧
      (cells.foldl drawCell acc).2 = (acc.2 || cells.any fun p => pixel acc.1 p.1 p.2) := by
  induction cells generalizing acc with
  | nil => simp
  | cons p cells ih =>
    obtain ⟨hp, hn⟩ := List.nodup_cons.mp hn
    obtain ⟨h1, h2⟩ := ih hn (drawCell acc p)
    have hpix : ∀ c r, pixel (drawCell acc p).1 c r = (pixel acc.1 c r ^^ decide (p = (c, r))) :=
      fun c r => pixel_flip acc.1 p.1 c p.2 r
    constructor
    · intro c r
      rw [List.foldl_cons, h1, hpix]
      by_cases hcr : p = (c, r)
      · subst hcr; simp [hp]
      · simp [hcr, Ne.symm hcr]
    · rw [List.foldl_cons, h2, show (drawCell acc p).2 = (acc.2 || pixel acc.1 p.1 p.2) from rfl,
        List.any_cons, Bool.or_assoc]
      have hsame : (cells.any fun q => pixel (drawCell acc p).1 q.1 q.2) =
          cells.any fun q => pixel acc.1 q.1 q.2 := by
        rw [Bool.eq_iff_iff, List.any_eq_true, List.any_eq_true]
        refine exists_congr fun q => and_congr_right fun hq => ?_
        have hpq : p ≠ q := fun h => hp (h ▸ hq)
        simp [hpix, hpq]
      rw [hsame]

theorem draw_pixel {cells : List (Fin 64 × Fin 32)} (hn : cells.Nodup) (fb : Framebuffer)
    (c : Fin 64) (r : Fin 32) :
    pixel (draw fb cells).1 c r = (pixel fb c r ^^ decide ((c, r) ∈ cells)) :=
  (foldl_drawCell cells hn (fb, false)).1 c r

theorem draw_collision {cells : List (Fin 64 × Fin 32)} (hn : cells.Nodup) (fb : Framebuffer) :
    (draw fb cells).2 = cells.any fun p => pixel fb p.1 p.2 :=
  (foldl_drawCell cells hn (fb, false)).2.trans (Bool.false_or _)

end Framebuffer

/-! ## The cells of a sprite (R131 to R133) -/

/-- Two pixels of one sprite never share a cell (R132: "no two pixels of one draw land on the same
framebuffer cell"). -/
theorem place_inj {mode : SpriteWrap} {x0 y0 : Byte} {c c' r r' : Nat} {p : Fin 64 × Fin 32}
    (hc : c < 8) (hc' : c' < 8) (hr : r < 16) (hr' : r' < 16)
    (h : place mode x0 y0 c r = some p) (h' : place mode x0 y0 c' r' = some p) : c = c' ∧ r = r' := by
  have e : place mode x0 y0 c r = place mode x0 y0 c' r' := h.trans h'.symm
  cases mode with
  | wrap =>
    simp only [place, Fin.ofNat, Option.some.injEq, Prod.mk.injEq, Fin.mk.injEq] at e
    omega
  | clip =>
    simp only [place] at h h'
    split at h <;> split at h' <;> simp_all only [Option.some.injEq, reduceCtorEq]
    have := h'.trans h.symm
    simp only [Prod.mk.injEq, Fin.mk.injEq] at this
    omega

theorem mem_rowCells {mode : SpriteWrap} {x0 y0 b : Byte} {r : Nat} {p : Fin 64 × Fin 32} :
    p ∈ rowCells mode x0 y0 b r ↔ ∃ c, c < 8 ∧ b.getLsbD (7 - c) = true ∧ place mode x0 y0 c r = some p := by
  simp only [rowCells, List.mem_filterMap, List.mem_range, Option.ite_none_right_eq_some]

theorem nodup_rowCells (mode : SpriteWrap) (x0 y0 b : Byte) {r : Nat} (hr : r < 16) :
    (rowCells mode x0 y0 b r).Nodup := by
  refine List.pairwise_filterMap.mpr (List.nodup_range.imp_of_mem ?_)
  intro c c' hc hc' hne p hp p' hp' e
  subst e
  rw [Option.ite_none_right_eq_some] at hp hp'
  exact hne (place_inj (List.mem_range.mp hc) (List.mem_range.mp hc') hr hr hp.2 hp'.2).1

namespace State

/-- Which cells the sprite at I has: row r < n, column c < 8, its bit lit and its place visible. -/
theorem mem_spriteCells {s : State} {x0 y0 : Byte} {n : Nat} {p : Fin 64 × Fin 32} :
    p ∈ s.spriteCells x0 y0 n ↔ ∃ r, r < n ∧ ∃ c, c < 8 ∧
      (s.byteAt (s.I.toNat + r)).getLsbD (7 - c) = true ∧
      place s.cfg.spriteWrap x0 y0 c r = some p := by
  simp only [spriteCells, List.mem_flatMap, List.mem_range, mem_rowCells]

theorem nodup_spriteCells (s : State) (x0 y0 : Byte) {n : Nat} (hn : n ≤ 16) :
    (s.spriteCells x0 y0 n).Nodup := by
  refine List.nodup_flatMap.mpr ⟨fun r hr => ?_, ?_⟩
  · exact nodup_rowCells _ _ _ _ (by have := List.mem_range.mp hr; omega)
  · refine List.nodup_range.imp_of_mem ?_
    intro r r' hr hr' hne p hp hp'
    obtain ⟨c, hc, -, h⟩ := mem_rowCells.mp hp
    obtain ⟨c', hc', -, h'⟩ := mem_rowCells.mp hp'
    rw [List.mem_range] at hr hr'
    exact hne (place_inj hc hc' (by omega) (by omega) h h').2

end State

end Sys2Proof.Machine
end

