-- ==== Sys2Proof/Laws/Exec.lean ====
section
/-! SUPPORT. What any instruction can do, said once: `exec` always answers a next state, and that state is
either the fault entry of the instruction or one of the effects of `Effect`. -/

namespace Sys2Proof.Machine

/-- What every instruction's execution leaves, faulting or not. -/
structure Effect (i : Instr) (s t : State) : Prop where
  cfg : t.cfg = s.cfg
  key : t.key = s.key
  tickStep : t.tickStep = s.tickStep
  host : t.host = s.host
  /-- no byte at or below `WP_TOP` changes (R54) -/
  protectedBytes : ∀ a, a ≤ s.cfg.wpTop.toNat → t.byteAt a = s.byteAt a
  /-- memory stays canonical -/
  memory : Memory.wf s.cfg.font s.mem → Memory.wf s.cfg.font t.mem
  /-- a faulting execution is the fault entry, any other leaves `run` alone -/
  fault : (∃ c a, t = s.raise c i a) ∨ t.run = s.run
  /-- only records of this instruction are appended to the log (R162) -/
  log : ∃ ds, t.diaglog = s.diaglog ++ ds ∧ ∀ d ∈ ds, d.pc = s.PC - 2

namespace Effect

variable {i : Instr} {s t : State}

/-- A fatal fault's entry (R167). -/
theorem of_raise (c : FaultCause) (a : Option Nat) : Effect i s (s.raise c i a) :=
  ⟨rfl, rfl, rfl, rfl, fun _ _ => rfl, fun h => h, .inl ⟨c, a, rfl⟩, [], by simp, by simp⟩

/-- An execution that leaves memory, configuration, keypad, log and run state alone. -/
theorem of_frame (hm : t.mem = s.mem) (hc : t.cfg = s.cfg) (hk : t.key = s.key)
    (ht : t.tickStep = s.tickStep) (hh : t.host = s.host) (hr : t.run = s.run)
    (hl : t.diaglog = s.diaglog) : Effect i s t :=
  ⟨hc, hk, ht, hh, fun a _ => by simp [State.byteAt, hm, hc], fun h => hm ▸ h, .inr hr,
    [], by simp [hl], by simp⟩

/-- A sequence of checked stores inside the memory. -/
theorem of_store {a : Nat} {bs : List Byte} (h : a + bs.length ≤ Config.memSize) :
    Effect i s (State.storeBytes i s a bs) := by
  refine ⟨by simp, by simp, by simp, by simp, fun n hn => ?_, fun hw => ?_, .inr (by simp),
    State.wprotRecords s i a bs.length, by simp [State.storeBytes_diaglog], fun d hd => ?_⟩
  · rw [State.storeBytes_byteAt, dif_neg]
    omega
  · simpa using State.storeBytes_wf (i := i) hw h
  · simp only [State.wprotRecords, List.mem_map] at hd
    obtain ⟨n, -, rfl⟩ := hd
    rfl

/-- Writing I after an execution that does not fault keeps its effect. -/
theorem setI (h : Effect i s t) (hr : t.run = s.run) (v : Word) : Effect i s (t.setI v) :=
  ⟨h.cfg, h.key, h.tickStep, h.host, h.protectedBytes, h.memory, .inr hr, h.log⟩

end Effect

/-- `exec` always answers a next state, and its effect is an `Effect`. -/
theorem exec_effect (i : Instr) (s : State) : ∃ t, exec i s = .next t ∧ Effect i s t := by
  have range : ∀ {n : Nat}, s.rangeFault (n + 1) = none → s.I.toNat + (n + 1) ≤ Config.memSize := by
    intro n h
    have := State.rangeFault_eq_none.mp h
    simp only [Config.memSize]
    omega
  cases i
  case ret =>
    simp only [exec, execRet]
    cases h : s.pop with
    | none => exact ⟨_, rfl, .of_raise _ _⟩
    | some p =>
      unfold State.pop at h
      split at h <;> cases h
      exact ⟨_, rfl, .of_frame rfl rfl rfl rfl rfl rfl rfl⟩
  case call nnn =>
    simp only [exec, execCall]
    cases h : s.push s.PC with
    | none => exact ⟨_, rfl, .of_raise _ _⟩
    | some p =>
      unfold State.push at h
      split at h <;> cases h
      exact ⟨_, rfl, .of_frame rfl rfl rfl rfl rfl rfl rfl⟩
  case skp x =>
    simp only [exec, execSkp]
    cases s.keyAt (s.reg x) with
    | none => exact ⟨_, rfl, .of_raise _ _⟩
    | some b => exact ⟨_, rfl, .of_frame rfl rfl rfl rfl rfl rfl rfl⟩
  case sknp x =>
    simp only [exec, execSknp]
    cases s.keyAt (s.reg x) with
    | none => exact ⟨_, rfl, .of_raise _ _⟩
    | some b => exact ⟨_, rfl, .of_frame rfl rfl rfl rfl rfl rfl rfl⟩
  case drw x y n =>
    simp only [exec, execDrw]
    cases s.rangeFault n.val with
    | some a => exact ⟨_, rfl, .of_raise _ _⟩
    | none => exact ⟨_, rfl, .of_frame rfl rfl rfl rfl rfl rfl rfl⟩
  case ldVxK x =>
    simp only [exec, execLdVxK]
    cases s.leastKey with
    | none => exact ⟨_, rfl, .of_frame rfl rfl rfl rfl rfl rfl rfl⟩
    | some k => exact ⟨_, rfl, .of_frame rfl rfl rfl rfl rfl rfl rfl⟩
  case rnd x kk => exact ⟨_, rfl, .of_frame (by simp) (by simp) (by simp) (by simp) (by simp) (by simp) (by simp)⟩
  case ldB x =>
    simp only [exec, execLdB]
    cases h : s.rangeFault 3 with
    | some a => exact ⟨_, rfl, .of_raise _ _⟩
    | none =>
      exact ⟨_, rfl, .of_store (by simpa [bcdDigits] using range h)⟩
  case ldMemVx x =>
    simp only [exec, execLdMemVx]
    cases h : s.rangeFault (x.val + 1) with
    | some a => exact ⟨_, rfl, .of_raise _ _⟩
    | none => exact ⟨_, rfl, (Effect.of_store (by simpa using range h)).setI (by simp) _⟩
  case ldVxMem x =>
    simp only [exec, execLdVxMem]
    cases s.rangeFault (x.val + 1) with
    | some a => exact ⟨_, rfl, .of_raise _ _⟩
    | none => exact ⟨_, rfl, .of_frame (by simp) (by simp) (by simp) (by simp) (by simp) (by simp) (by simp)⟩
  all_goals exact ⟨_, rfl, .of_frame rfl rfl rfl rfl rfl rfl rfl⟩

end Sys2Proof.Machine
end

