-- ==== Sys2Proof/Laws/PerInstr.lean ====
section
/-! SUPPORT. Statements made per instruction. The family Encoding: an instruction's word matches the row of
the opcode map that bears its name, so every fixed bit of its encoding is as the map has it. -/

namespace Sys2Proof.Laws

/-- Some row of the opcode map bears the instruction's name and its word matches it. -/
def Encoding.Statement (i : Instr) : Prop :=
  ∃ r ∈ opcodeTable, r.mnemonic = i.mnemonic ∧ r.matchesWord (encode i) = true

/-- How each row is shown: name the row, and reduce the match to the word under the row's mask. -/
theorem Encoding.of_row {i : Instr} (r : OpcodeRow) (hr : r ∈ opcodeTable)
    (hn : r.mnemonic = i.mnemonic) (hw : encode i &&& r.mask = r.value) : Encoding.Statement i :=
  ⟨r, hr, hn, decide_eq_true hw⟩

theorem Encoding.cls : Encoding.Statement (.cls) :=
  of_row ⟨"CLS", 0xFFFF, 0x00E0⟩ (by decide) rfl (by decide)

theorem Encoding.ret : Encoding.Statement (.ret) :=
  of_row ⟨"RET", 0xFFFF, 0x00EE⟩ (by decide) rfl (by decide)

theorem Encoding.jp (nnn : BitVec 12) : Encoding.Statement (.jp nnn) :=
  of_row ⟨"JP_nnn", 0xF000, 0x1000⟩ (by decide) rfl (packNNN_and_F000 _ _)

theorem Encoding.call (nnn : BitVec 12) : Encoding.Statement (.call nnn) :=
  of_row ⟨"CALL_nnn", 0xF000, 0x2000⟩ (by decide) rfl (packNNN_and_F000 _ _)

theorem Encoding.seImm (x : Reg) (kk : Byte) : Encoding.Statement (.seImm x kk) :=
  of_row ⟨"SE_Vx__kk", 0xF000, 0x3000⟩ (by decide) rfl (packXKK_and_F000 _ _ _)

theorem Encoding.sneImm (x : Reg) (kk : Byte) : Encoding.Statement (.sneImm x kk) :=
  of_row ⟨"SNE_Vx__kk", 0xF000, 0x4000⟩ (by decide) rfl (packXKK_and_F000 _ _ _)

theorem Encoding.seReg (x : Reg) (y : Reg) : Encoding.Statement (.seReg x y) :=
  of_row ⟨"SE_Vx__Vy", 0xF000, 0x5000⟩ (by decide) rfl (packXYN_and_F000 _ _ _ _)

theorem Encoding.ldImm (x : Reg) (kk : Byte) : Encoding.Statement (.ldImm x kk) :=
  of_row ⟨"LD_Vx__kk", 0xF000, 0x6000⟩ (by decide) rfl (packXKK_and_F000 _ _ _)

theorem Encoding.addImm (x : Reg) (kk : Byte) : Encoding.Statement (.addImm x kk) :=
  of_row ⟨"ADD_Vx__kk", 0xF000, 0x7000⟩ (by decide) rfl (packXKK_and_F000 _ _ _)

theorem Encoding.ldReg (x : Reg) (y : Reg) : Encoding.Statement (.ldReg x y) :=
  of_row ⟨"LD_Vx__Vy", 0xF00F, 0x8000⟩ (by decide) rfl (packXYN_and_F00F _ _ _ _)

theorem Encoding.orReg (x : Reg) (y : Reg) : Encoding.Statement (.orReg x y) :=
  of_row ⟨"OR_Vx__Vy", 0xF00F, 0x8001⟩ (by decide) rfl (packXYN_and_F00F _ _ _ _)

theorem Encoding.andReg (x : Reg) (y : Reg) : Encoding.Statement (.andReg x y) :=
  of_row ⟨"AND_Vx__Vy", 0xF00F, 0x8002⟩ (by decide) rfl (packXYN_and_F00F _ _ _ _)

theorem Encoding.xorReg (x : Reg) (y : Reg) : Encoding.Statement (.xorReg x y) :=
  of_row ⟨"XOR_Vx__Vy", 0xF00F, 0x8003⟩ (by decide) rfl (packXYN_and_F00F _ _ _ _)

theorem Encoding.addReg (x : Reg) (y : Reg) : Encoding.Statement (.addReg x y) :=
  of_row ⟨"ADD_Vx__Vy", 0xF00F, 0x8004⟩ (by decide) rfl (packXYN_and_F00F _ _ _ _)

theorem Encoding.sub (x : Reg) (y : Reg) : Encoding.Statement (.sub x y) :=
  of_row ⟨"SUB_Vx__Vy", 0xF00F, 0x8005⟩ (by decide) rfl (packXYN_and_F00F _ _ _ _)

theorem Encoding.shr (x : Reg) (y : Reg) : Encoding.Statement (.shr x y) :=
  of_row ⟨"SHR_Vx__Vy", 0xF00F, 0x8006⟩ (by decide) rfl (packXYN_and_F00F _ _ _ _)

theorem Encoding.subn (x : Reg) (y : Reg) : Encoding.Statement (.subn x y) :=
  of_row ⟨"SUBN_Vx__Vy", 0xF00F, 0x8007⟩ (by decide) rfl (packXYN_and_F00F _ _ _ _)

theorem Encoding.shl (x : Reg) (y : Reg) : Encoding.Statement (.shl x y) :=
  of_row ⟨"SHL_Vx__Vy", 0xF00F, 0x800E⟩ (by decide) rfl (packXYN_and_F00F _ _ _ _)

theorem Encoding.sneReg (x : Reg) (y : Reg) : Encoding.Statement (.sneReg x y) :=
  of_row ⟨"SNE_Vx__Vy", 0xF000, 0x9000⟩ (by decide) rfl (packXYN_and_F000 _ _ _ _)

theorem Encoding.ldI (nnn : BitVec 12) : Encoding.Statement (.ldI nnn) :=
  of_row ⟨"LD_I__nnn", 0xF000, 0xA000⟩ (by decide) rfl (packNNN_and_F000 _ _)

theorem Encoding.jpV0 (nnn : BitVec 12) : Encoding.Statement (.jpV0 nnn) :=
  of_row ⟨"JP_V0__nnn", 0xF000, 0xB000⟩ (by decide) rfl (packNNN_and_F000 _ _)

theorem Encoding.rnd (x : Reg) (kk : Byte) : Encoding.Statement (.rnd x kk) :=
  of_row ⟨"RND_Vx__kk", 0xF000, 0xC000⟩ (by decide) rfl (packXKK_and_F000 _ _ _)

theorem Encoding.drw (x : Reg) (y : Reg) (n : Fin 16) : Encoding.Statement (.drw x y n) :=
  of_row ⟨"DRW_Vx__Vy__n", 0xF000, 0xD000⟩ (by decide) rfl (packXYN_and_F000 _ _ _ _)

theorem Encoding.skp (x : Reg) : Encoding.Statement (.skp x) :=
  of_row ⟨"SKP_Vx", 0xF0FF, 0xE09E⟩ (by decide) rfl (packXKK_and_F0FF _ _ _)

theorem Encoding.sknp (x : Reg) : Encoding.Statement (.sknp x) :=
  of_row ⟨"SKNP_Vx", 0xF0FF, 0xE0A1⟩ (by decide) rfl (packXKK_and_F0FF _ _ _)

theorem Encoding.ldVxDT (x : Reg) : Encoding.Statement (.ldVxDT x) :=
  of_row ⟨"LD_Vx__DT", 0xF0FF, 0xF007⟩ (by decide) rfl (packXKK_and_F0FF _ _ _)

theorem Encoding.ldVxK (x : Reg) : Encoding.Statement (.ldVxK x) :=
  of_row ⟨"LD_Vx__K", 0xF0FF, 0xF00A⟩ (by decide) rfl (packXKK_and_F0FF _ _ _)

theorem Encoding.ldDTVx (x : Reg) : Encoding.Statement (.ldDTVx x) :=
  of_row ⟨"LD_DT__Vx", 0xF0FF, 0xF015⟩ (by decide) rfl (packXKK_and_F0FF _ _ _)

theorem Encoding.ldSTVx (x : Reg) : Encoding.Statement (.ldSTVx x) :=
  of_row ⟨"LD_ST__Vx", 0xF0FF, 0xF018⟩ (by decide) rfl (packXKK_and_F0FF _ _ _)

theorem Encoding.addI (x : Reg) : Encoding.Statement (.addI x) :=
  of_row ⟨"ADD_I__Vx", 0xF0FF, 0xF01E⟩ (by decide) rfl (packXKK_and_F0FF _ _ _)

theorem Encoding.ldF (x : Reg) : Encoding.Statement (.ldF x) :=
  of_row ⟨"LD_F__Vx", 0xF0FF, 0xF029⟩ (by decide) rfl (packXKK_and_F0FF _ _ _)

theorem Encoding.ldB (x : Reg) : Encoding.Statement (.ldB x) :=
  of_row ⟨"LD_B__Vx", 0xF0FF, 0xF033⟩ (by decide) rfl (packXKK_and_F0FF _ _ _)

theorem Encoding.ldMemVx (x : Reg) : Encoding.Statement (.ldMemVx x) :=
  of_row ⟨"LD__I___Vx", 0xF0FF, 0xF055⟩ (by decide) rfl (packXKK_and_F0FF _ _ _)

theorem Encoding.ldVxMem (x : Reg) : Encoding.Statement (.ldVxMem x) :=
  of_row ⟨"LD_Vx___I", 0xF0FF, 0xF065⟩ (by decide) rfl (packXKK_and_F0FF _ _ _)

end Sys2Proof.Laws
end

