-- ==== Sys2Proof/Laws/Tick.lean ====
section
/-! SUPPORT. What the engine's Step, the end of a Step, RESET and the machine's step can do, said once. -/

namespace Sys2Proof.Machine

/-! ## Timers -/

@[simp] theorem State.toNat_countDown (t : Byte) : (State.countDown t).toNat = t.toNat - 1 := by
  revert t; decide

theorem State.soundActive_iff (s : State) : s.soundActive = true ↔ s.ST ≠ 0 := decide_eq_true_iff

theorem State.beep_iff (s : State) : s.beep = true ↔ s.run = .running ∧ s.ST ≠ 0 := by
  rw [State.beep, Bool.and_eq_true, State.soundActive_iff]
  exact and_congr_left' decide_eq_true_iff

/-! ## The end of a Step -/

theorem endStep_of_faulted {s : State} (h : s.run ≠ .running) : endStep s = { s with tickStep := 0 } := by
  unfold endStep
  split
  · rfl
  · contradiction

theorem endStep_of_midTick {s : State} (h : s.run = .running) (ht : s.tickStep + 1 < s.cfg.cyclesPerTick) :
    endStep s = { s with tickStep := s.tickStep + 1 } := by
  simp only [endStep, h, if_pos ht]

theorem endStep_of_last {s : State} (h : s.run = .running) (ht : s.cfg.cyclesPerTick ≤ s.tickStep + 1) :
    endStep s = { s.decTimers with tickStep := 0 } := by
  simp only [endStep, h, if_neg (Nat.not_lt.mpr ht)]

/-- The end of a Step touches nothing but the timers and the tick's counter. -/
theorem endStep_frame (s : State) :
    endStep s = { s with DT := (endStep s).DT, ST := (endStep s).ST, tickStep := (endStep s).tickStep } := by
  unfold endStep
  split
  · rfl
  · split <;> rfl

/-! ## The engine's Step -/

/-- What a Step of the engine leaves, faulting or not. -/
structure StepEffect (s t : State) : Prop where
  cfg : t.cfg = s.cfg
  key : t.key = s.key
  tickStep : t.tickStep = s.tickStep
  host : t.host = s.host
  /-- no byte at or below `WP_TOP` changes (R54) -/
  protectedBytes : ∀ a, a ≤ s.cfg.wpTop.toNat → t.byteAt a = s.byteAt a
  /-- memory stays canonical -/
  memory : Memory.wf s.cfg.font s.mem → Memory.wf s.cfg.font t.mem
  /-- a Step that faults changes `run` alone (R167) -/
  fault : (∃ r, t = { s with run := .faulted r }) ∨ t.run = s.run
  /-- every record appended to the log holds PC_i (R162) -/
  log : ∃ ds, t.diaglog = s.diaglog ++ ds ∧ (∀ d ∈ ds, d.pc = s.PC) ∧ (t.run ≠ s.run → ds = [])

/-- Executing an instruction on the advanced state has the effect of a Step. -/
theorem Effect.ofStep {i : Instr} {s t : State} (h : Effect i s.advance t) : StepEffect s t := by
  have hpc : s.PC + 2 - 2 = s.PC := BitVec.add_sub_cancel _ _
  refine ⟨h.cfg, h.key, h.tickStep, h.host, h.protectedBytes, h.memory, ?_, ?_⟩
  · rcases h.fault with ⟨c, a, rfl⟩ | h
    · refine .inl ⟨⟨c, s.PC, some (encode i), a⟩, ?_⟩
      simp only [State.raise, State.takeFault, State.instrAddr, State.advance, hpc]
    · exact .inr h
  · rcases h.fault with ⟨c, a, rfl⟩ | hr
    · exact ⟨[], by simp [State.advance], by simp, fun _ => rfl⟩
    · obtain ⟨ds, hds, hp⟩ := h.log
      exact ⟨ds, hds, fun d hd => (hp d hd).trans hpc, fun hne => absurd hr hne⟩

/-- A fetch that leaves the memory has the effect of a Step. -/
theorem StepEffect.of_fetchFault (s : State) (c : FaultCause) (w : Option Word) (a : Option Nat) :
    StepEffect s (s.takeFault ⟨c, s.PC, w, a⟩) :=
  ⟨rfl, rfl, rfl, rfl, fun _ _ => rfl, fun h => h, .inl ⟨_, rfl⟩, [], by simp, by simp, fun _ => rfl⟩

/-- An UNIMPL word has the effect of a Step. -/
theorem StepEffect.of_unimpl (s : State) (w : Word) : StepEffect s (s.advance.diag .unimpl w none) := by
  refine ⟨rfl, rfl, rfl, rfl, fun _ _ => rfl, fun h => h, .inr rfl, [_], rfl, ?_, fun h => absurd rfl h⟩
  simp only [List.mem_singleton, forall_eq]
  exact BitVec.add_sub_cancel _ _

/-- The engine's Step always answers a next state, and its effect is a `StepEffect`. -/
theorem engineStep_effect (s : State) : ∃ t, engineStep s = .next t ∧ StepEffect s t := by
  unfold engineStep
  split
  · exact ⟨s, rfl, rfl, rfl, rfl, rfl, fun _ _ => rfl, fun h => h, .inr rfl, [], by simp, by simp,
      fun _ => rfl⟩
  · split
    · exact ⟨_, rfl, .of_fetchFault ..⟩
    · split
      · exact ⟨_, rfl, .of_unimpl ..⟩
      · obtain ⟨t, e, h⟩ := exec_effect ‹_› s.advance
        exact ⟨t, e, h.ofStep⟩

/-- Fetch inside the memory (R55). -/
theorem fetch_of_le {s : State} (h : s.PC.toNat ≤ 0xFFE) :
    fetch s = .word (wordOfBytes (s.byteAt s.PC.toNat) (s.byteAt (s.PC.toNat + 1))) := by
  rw [fetch, if_neg (by omega), if_neg (by omega)]

/-- A fetch that leaves the memory (R55). -/
theorem fetch_of_gt {s : State} (h : 0xFFE < s.PC.toNat) : fetch s = .outside (max s.PC.toNat 0x1000) := by
  unfold fetch
  split
  · rw [max_eq_left (by omega)]
  · rw [if_pos (by omega), max_eq_right (by omega)]

/-- The Step of a running core that fetches an instruction's word is the instruction, on the advanced state. -/
theorem engineStep_of_instr {s : State} {w : Word} {i : Instr} (hr : s.run = .running)
    (hf : fetch s = .word w) (hd : decodeWord w = .instr i) : engineStep s = exec i s.advance := by
  simp only [engineStep, hr, hf, hd]

/-! ## The tick's counter is not observed -/

/-- The state with another value of the tick's counter. -/
abbrev State.withTick (s : State) (n : Nat) : State := { s with tickStep := n }

theorem State.storeBytes_withTick (i : Instr) (s : State) (n a : Nat) (bs : List Byte) :
    State.storeBytes i (s.withTick n) a bs = (State.storeBytes i s a bs).withTick n := by
  induction bs generalizing s a with
  | nil => rfl
  | cons b bs ih =>
    have : (s.withTick n).memWrite i a b = (s.memWrite i a b).withTick n := by
      unfold State.memWrite
      split <;> rfl
    simp only [State.storeBytes, this, ih]

theorem State.loadRegs_withTick (s : State) (n : Nat) (ks : List Reg) :
    (s.withTick n).loadRegs ks = (s.loadRegs ks).withTick n := by
  unfold State.loadRegs
  induction ks generalizing s with
  | nil => rfl
  | cons k ks ih => exact ih (s.setReg k (s.byteAt (s.I.toNat + k.val)))

/-- No instruction reads the tick's counter. -/
theorem exec_withTick (i : Instr) (s : State) (n : Nat) :
    exec i (s.withTick n) = onNext (State.withTick · n) (exec i s) := by
  have hr : ∀ m, (s.withTick n).rangeFault m = s.rangeFault m := fun _ => rfl
  cases i
  case ret =>
    have : (s.withTick n).pop = s.pop.map fun p => (p.1, p.2.withTick n) := by
      unfold State.pop
      split <;> rfl
    simp only [exec, execRet, this]
    cases s.pop <;> rfl
  case call =>
    have : (s.withTick n).push s.PC = (s.push s.PC).map fun p => p.withTick n := by
      unfold State.push
      split <;> rfl
    simp only [exec, execCall, this]
    cases s.push s.PC <;> rfl
  case skp x =>
    show execSkp x _ = onNext _ (execSkp x s)
    unfold execSkp
    show (match s.keyAt (s.reg x) with | some _ => _ | none => _) = _
    cases s.keyAt (s.reg x) <;> rfl
  case sknp x =>
    show execSknp x _ = onNext _ (execSknp x s)
    unfold execSknp
    show (match s.keyAt (s.reg x) with | some _ => _ | none => _) = _
    cases s.keyAt (s.reg x) <;> rfl
  case ldVxK =>
    simp only [exec, execLdVxK]
    cases hk : s.leastKey <;> have : (s.withTick n).leastKey = _ := hk <;> simp only [this, onNext] <;> rfl
  case drw x y m =>
    simp only [exec, execDrw, hr]
    cases s.rangeFault m.val <;> rfl
  case ldB =>
    simp only [exec, execLdB, hr]
    cases s.rangeFault 3
    · simp only [State.storeBytes_withTick]; rfl
    · rfl
  case ldMemVx x =>
    simp only [exec, execLdMemVx, hr]
    cases s.rangeFault (x.val + 1)
    · simp only [State.storeBytes_withTick]; rfl
    · rfl
  case ldVxMem x =>
    simp only [exec, execLdVxMem, hr]
    cases s.rangeFault (x.val + 1)
    · simp only [State.loadRegs_withTick]; rfl
    · rfl
  case rnd =>
    have : (s.withTick n).drawRnd = (s.drawRnd.1, s.drawRnd.2.withTick n) := by
      unfold State.drawRnd
      split <;> simp_all
    simp only [exec, execRnd, this]
    rfl
  all_goals rfl

/-- No Step reads the tick's counter. -/
theorem engineStep_withTick (s : State) (n : Nat) :
    engineStep (s.withTick n) = onNext (State.withTick · n) (engineStep s) := by
  have hf : fetch (s.withTick n) = fetch s := rfl
  simp only [engineStep, hf]
  cases s.run
  · simp only
    cases fetch s with
    | outside a => rfl
    | word w =>
      simp only
      cases decodeWord w with
      | unimpl f => rfl
      | instr i => exact exec_withTick i s.advance n
  · rfl

/-! ## RESET -/

/-- What RESET answers. -/
theorem construct_cases (cfg : Cfg) (rom : List Byte) :
    (rom.length ≤ 3584 ∧ 1 ≤ cfg.cyclesPerTick ∧ construct cfg rom =
      .next { State.reset with cfg := cfg, mem := Memory.image cfg.font Config.programStart rom }) ∨
    (rom.length ≤ 3584 ∧ cfg.cyclesPerTick = 0 ∧ construct cfg rom = .refused .badConfig) ∨
    (3584 < rom.length ∧ construct cfg rom = .refused .romTooLong) := by
  by_cases h1 : rom.length ≤ 3584
  · by_cases h2 : 1 ≤ cfg.cyclesPerTick
    · exact .inl ⟨h1, h2, by simp [construct, romWellFormed, Cfg.wellFormed, Config.romMax, h1, h2]⟩
    · exact .inr (.inl ⟨h1, by omega, by simp [construct, romWellFormed, Cfg.wellFormed, Config.romMax, h1, h2]⟩)
  · exact .inr (.inr ⟨by omega, by simp [construct, romWellFormed, Config.romMax, h1]⟩)

/-- What a successful RESET leaves. -/
theorem construct_eq_next {cfg : Cfg} {rom : List Byte} {t : State} (h : construct cfg rom = .next t) :
    rom.length ≤ 3584 ∧ 1 ≤ cfg.cyclesPerTick ∧
      t = { State.reset with cfg := cfg, mem := Memory.image cfg.font Config.programStart rom } := by
  rcases construct_cases cfg rom with ⟨h1, h2, e⟩ | ⟨-, -, e⟩ | ⟨-, e⟩
  · rw [e] at h
    exact ⟨h1, h2, (Host.Outcome.next.inj h).symm⟩
  · rw [e] at h; cases h
  · rw [e] at h; cases h

/-! ## The machine's step -/

theorem State.faulted_of_ne {s : State} (h : s.run ≠ .running) : ∃ r, s.run = .faulted r := by
  cases hr : s.run with
  | running => exact absurd hr h
  | faulted r => exact ⟨r, rfl⟩

theorem State.atBoundary_iff (s : State) : s.atBoundary = true ↔ s.tickStep = 0 ∨ s.run ≠ .running := by
  simp [State.atBoundary]

/-- Inside a tick. -/
theorem step_of_midTick {s : State} (h : s.tickStep ≠ 0) (hr : s.run = .running) :
    step s = onNext endStep (engineStep s) := by
  have : s.atBoundary = false := by simp [State.atBoundary, h, hr]
  simp only [step, sequencerStep, this, tickStepOnce, Bool.false_eq_true, if_false]

/-- At a tick boundary. -/
theorem step_of_boundary {s : State} (h : s.atBoundary = true) : step s = hostStep s := by
  simp only [step, sequencerStep, h, if_true]

/-- The host's TICK on a running core. -/
theorem hostStep_of_tick {s : State} {keys : Keypad} {rest : List HostCmd} (hr : s.run = .running)
    (hh : s.host = .tick keys :: rest) :
    hostStep s = onNext endStep (engineStep { s with host := rest, key := keys }) := by
  simp only [hostStep, hh, beginTick, hr, tickStepOnce]

/-- No listed command on a running core: a TICK with a free key vector. -/
theorem hostStep_of_nil {s : State} (hr : s.run = .running) (hh : s.host = []) :
    hostStep s = onNext endStep
      (engineStep { s with draws := s.draws + 1, key := Config.hostKeys s.draws }) := by
  simp only [hostStep, hh, hr, beginTick, tickStepOnce]

/-- The commands left before a TICK: none, or the TICK comes first. -/
theorem beforeTick_cases (l : List HostCmd) : beforeTick l = [] ∨ ∃ keys rest, beforeTick l = .tick keys :: rest := by
  induction l with
  | nil => exact .inl rfl
  | cons c l ih =>
    cases c with
    | tick keys => exact .inr ⟨keys, l, rfl⟩
    | reset => exact ih
    | ackRedraw => exact ih

/-- A running core whose next move is a Step: the step of the machine runs it. -/
theorem step_of_ready {s : State} (hr : s.run = .running)
    (h : s.tickStep = 0 → s.host = [] ∨ ∃ keys rest, s.host = .tick keys :: rest) :
    ∃ keys host draws, step s = onNext endStep
        (engineStep { s with key := keys, host := host, draws := draws }) ∧
      (s.tickStep ≠ 0 → keys = s.key ∧ host = s.host ∧ draws = s.draws) := by
  by_cases ht : s.tickStep = 0
  · have hb := (State.atBoundary_iff s).mpr (.inl ht)
    rcases h ht with hh | ⟨keys, rest, hh⟩
    · exact ⟨_, _, _, (step_of_boundary hb).trans (hostStep_of_nil hr hh), fun h => absurd ht h⟩
    · exact ⟨_, _, _, (step_of_boundary hb).trans (hostStep_of_tick hr hh), fun h => absurd ht h⟩
  · exact ⟨s.key, s.host, s.draws, step_of_midTick ht hr, fun _ => ⟨rfl, rfl, rfl⟩⟩

/-- A run of the core, one step at a time. -/
theorem core_run_succ {s s' : State} (h : step s = .next s') (k : Nat) :
    Host.Core.run Sys2Proof.core (k + 1) s = Host.Core.run Sys2Proof.core k s' := by
  have h' : Sys2Proof.core.step s = .next s' := h
  simp only [Host.Core.run]
  rw [h']

/-- Everything a step of the machine can do: a Step of the engine and its end, from the state with the host's
TICK taken or from the state itself; a host command that runs no Step; or nothing, on a halted core. -/
theorem step_cases (s : State) :
    (s.run = .running ∧ ∃ keys host draws,
      step s = onNext endStep (engineStep { s with key := keys, host := host, draws := draws }) ∧
      (s.tickStep ≠ 0 → keys = s.key ∧ host = s.host ∧ draws = s.draws)) ∨
    ((s.tickStep = 0 ∨ s.run ≠ .running) ∧ ∃ rest, s.host = .ackRedraw :: rest ∧
      step s = .next { s with redraw := false, host := rest }) ∨
    ((s.tickStep = 0 ∨ s.run ≠ .running) ∧ ∃ cfg rom rest, s.host = .reset cfg rom :: rest ∧
      step s = onNext (fun t => { t with host := rest, rndIn := s.rndIn, draws := s.draws })
        (construct cfg rom)) ∨
    (s.run ≠ .running ∧ ∃ keys rest, s.host = .tick keys :: rest ∧ step s = .next { s with host := rest }) ∨
    (s.run ≠ .running ∧ s.host = [] ∧ step s = .next s) := by
  by_cases hb : s.atBoundary = true
  · have hb' := (State.atBoundary_iff s).mp hb
    rw [step_of_boundary hb]
    have hz : s.run = .running → s.tickStep ≠ 0 → False := fun hr h => by simp_all
    by_cases hr : s.run = .running
    · rcases hh : s.host with _ | ⟨⟨cfg, rom⟩ | keys | _, rest⟩
      · exact .inl ⟨hr, _, _, _, hostStep_of_nil hr hh, fun h => (hz hr h).elim⟩
      · exact .inr (.inr (.inl ⟨hb', cfg, rom, rest, rfl, by simp only [hostStep, hh]⟩))
      · exact .inl ⟨hr, _, _, _, hostStep_of_tick hr hh, fun h => (hz hr h).elim⟩
      · exact .inr (.inl ⟨hb', rest, rfl, by simp only [hostStep, hh]⟩)
    · obtain ⟨r, hf⟩ := State.faulted_of_ne hr
      rcases hh : s.host with _ | ⟨⟨cfg, rom⟩ | keys | _, rest⟩
      · exact .inr (.inr (.inr (.inr ⟨hr, rfl, by simp only [hostStep, hh, hf]⟩)))
      · exact .inr (.inr (.inl ⟨hb', cfg, rom, rest, rfl, by simp only [hostStep, hh]⟩))
      · exact .inr (.inr (.inr (.inl ⟨hr, keys, rest, rfl, by simp only [hostStep, hh, beginTick, hf]⟩)))
      · exact .inr (.inl ⟨hb', rest, rfl, by simp only [hostStep, hh]⟩)
  · have h : s.tickStep ≠ 0 ∧ s.run = .running := by
      rw [State.atBoundary_iff] at hb
      push Not at hb
      exact hb
    exact .inl ⟨h.2, s.key, s.host, s.draws, step_of_midTick h.1 h.2, fun _ => ⟨rfl, rfl, rfl⟩⟩

end Sys2Proof.Machine
end

