-- ==== Sys2Proof/Tests/Slice0.lean ====
section
/-! SUPPORT. The model's own tests. Expected results come from the spec: a vector id (VA1, L1-2, ...) is one
of spec/95_test_vectors.md, and words are written out bit by bit from the encodings of spec/30_encoding.md.
The last part shows, for every statement with hypotheses, a concrete state and operands that meet them. -/

namespace Sys2Proof.Tests

open Sys2Proof Sys2Proof.Machine Sys2Proof.Claims

/-! ## Helpers -/

/-- The configuration of the vectors' conventions, with both quirks set as given. -/
def vecCfg (quirk : Bool) : Cfg :=
  { loadStoreQuirk := quirk, shiftQuirk := quirk, cyclesPerTick := 1, spriteWrap := .wrap,
    font := Config.font, wpTop := 0x200 }

/-- The state just after RESET with that configuration and no ROM. -/
def fresh (quirk : Bool) : State := { State.reset with cfg := vecCfg quirk }

/-- The state after the common fetch of an instruction at 0x200, quirks false. -/
def s0 : State := { fresh false with PC := 0x202 }

/-- The same with both quirks true. -/
def q0 : State := { fresh true with PC := 0x202 }

/-- A state with bytes placed from an address on. -/
def withBytes (s : State) : Nat → List Byte → State
  | _, [] => s
  | a, b :: bs => withBytes (s.pokeByte a b) (a + 1) bs

/-- The next state, or the state itself where there is none. -/
def nextOr (s : State) : Host.Outcome State Fault Refusal → State
  | .next t => t
  | _ => s

/-- The state an instruction leaves. -/
def after (i : Instr) (s : State) : State := nextOr s (exec i s)

/-- The state one Step of the engine leaves. -/
def stepped (s : State) : State := nextOr s (engineStep s)

/-- A fresh core with four Steps in a tick. -/
def fourSteps : State := { fresh false with cfg := { vecCfg false with cyclesPerTick := 4 } }

/-- Keys 3 and 15 pressed. -/
def keys3and15 : Keypad := ((Vector.replicate 16 false).set 3 true).set 15 true

/-- A halted core. -/
def halted : State := { fresh false with run := .faulted ⟨.memBounds, 0x1000, none, some 0x1000⟩ }

/-! ## WellFormed smoke tests -/

/-- R5: cyclesPerTick = 0 is outside the parameter's range, and RESET refuses it. -/
theorem test_wellFormed_refuses_zero_cycles :
    Cfg.wellFormed { vecCfg false with cyclesPerTick := 0 } = false ∧
    construct { vecCfg false with cyclesPerTick := 0 } [] = .refused .badConfig := ⟨by decide, rfl⟩

/-- VG3: a ROM of 3585 bytes is refused; VG2: one of 3584 is not. -/
theorem test_wellFormed_refuses_long_rom :
    romWellFormed (List.replicate 3585 0) = false ∧ romWellFormed (List.replicate 3584 0) = true ∧
    construct (vecCfg false) (List.replicate 3585 0) = .refused .romTooLong := by
  have h : ∀ n, romWellFormed (List.replicate n 0) = decide (n ≤ 3584) := fun n => by
    rw [romWellFormed, List.length_replicate]; rfl
  refine ⟨(h 3585).trans (by decide), (h 3584).trans (by decide), ?_⟩
  rw [construct, h 3585]
  rfl

/-- Instruction syntax has nothing to refuse: operands carry their bounds in their types. -/
theorem test_wellFormed_accepts_every_operand :
    (Instr.drw 15 15 15).wellFormed = true ∧ (Instr.jp 0xFFF).wellFormed = true ∧
    (Instr.ldImm 15 0xFF).wellFormed = true := by decide

/-! ## Decode: every constructor, from a word written out bit by bit -/

theorem test_decode_control :
    decodeWord 0b0000000011100000 = .instr .cls ∧
    decodeWord 0b0000000011101110 = .instr .ret ∧
    decodeWord 0b0001001000110100 = .instr (.jp 0x234) ∧
    decodeWord 0b0010001100000000 = .instr (.call 0x300) ∧
    decodeWord 0b0011001100000101 = .instr (.seImm 3 0x05) ∧
    decodeWord 0b0100001100000101 = .instr (.sneImm 3 0x05) ∧
    decodeWord 0b0101000100100000 = .instr (.seReg 1 2) ∧
    decodeWord 0b1001000100100000 = .instr (.sneReg 1 2) ∧
    decodeWord 0b1011001100000000 = .instr (.jpV0 0x300) := by decide

theorem test_decode_arithmetic :
    decodeWord 0b0110101000000101 = .instr (.ldImm 10 0x05) ∧
    decodeWord 0b0111101000000011 = .instr (.addImm 10 0x03) ∧
    decodeWord 0b1000000000010000 = .instr (.ldReg 0 1) ∧
    decodeWord 0b1000000000010001 = .instr (.orReg 0 1) ∧
    decodeWord 0b1000000000010010 = .instr (.andReg 0 1) ∧
    decodeWord 0b1000000000010011 = .instr (.xorReg 0 1) ∧
    decodeWord 0b1000111100010100 = .instr (.addReg 15 1) ∧
    decodeWord 0b1000000000010101 = .instr (.sub 0 1) ∧
    decodeWord 0b1000000000010110 = .instr (.shr 0 1) ∧
    decodeWord 0b1000000000010111 = .instr (.subn 0 1) ∧
    decodeWord 0b1000000000011110 = .instr (.shl 0 1) ∧
    decodeWord 0b1100001100001111 = .instr (.rnd 3 0x0F) := by decide

theorem test_decode_display_keypad_timer_memory :
    decodeWord 0b1101000100100101 = .instr (.drw 1 2 5) ∧
    decodeWord 0b1010001100000000 = .instr (.ldI 0x300) ∧
    decodeWord 0b1110010110011110 = .instr (.skp 5) ∧
    decodeWord 0b1110010110100001 = .instr (.sknp 5) ∧
    decodeWord 0b1111110000000111 = .instr (.ldVxDT 12) ∧
    decodeWord 0b1111101100001010 = .instr (.ldVxK 11) ∧
    decodeWord 0b1111101000010101 = .instr (.ldDTVx 10) ∧
    decodeWord 0b1111000100011000 = .instr (.ldSTVx 1) ∧
    decodeWord 0b1111001000011110 = .instr (.addI 2) ∧
    decodeWord 0b1111101000101001 = .instr (.ldF 10) ∧
    decodeWord 0b1111000000110011 = .instr (.ldB 0) ∧
    decodeWord 0b1111001001010101 = .instr (.ldMemVx 2) ∧
    decodeWord 0b1111010001100101 = .instr (.ldVxMem 4) := by decide

/-- VA6 to VA10: UNIMPL words are rejected by name; VA11, VA12: the bottom nibble of 5xyN and 9xyN is ignored. -/
theorem test_decode_rejects :
    decodeWord 0x0123 = .unimpl .family0 ∧ decodeWord 0x0000 = .unimpl .family0 ∧
    decodeWord 0x8008 = .unimpl .family8 ∧ decodeWord 0x800F = .unimpl .family8 ∧
    decodeWord 0xE09F = .unimpl .familyE ∧ decodeWord 0xF075 = .unimpl .familyF ∧
    decodeWord 0x5121 = .instr (.seReg 1 2) ∧ decodeWord 0x912F = .instr (.sneReg 1 2) ∧
    decodeBytes [0x12] = .reject .tooShort ∧ decodeBytes [0x12, 0x34, 0x56] = .instr (.jp 0x234) [0x56] := by
  decide

/-- The host's view of a table word; an operand word of zeros; a rejected word. -/
theorem test_decodeTableWord :
    decodeTableWord 16 0xD125 = some (.drw 1 2 5) ∧ decodeTableWord 16 0xF000 = none ∧
    decodeTableWord 16 0x6000 = some (.ldImm 0 0) := by decide

/-! ## Step and fetch -/

/-- VA1: mem[0x200..0x201] = 12 34 is fetched big-endian and jumps to 0x234. -/
theorem test_step_big_endian : (stepped (withBytes (fresh false) 0x200 [0x12, 0x34])).PC = 0x234 := by decide

/-- VA2: an odd PC is legal. -/
theorem test_step_odd_pc :
    (stepped (withBytes { fresh false with PC := 0x301 } 0x301 [0x60, 0x7F])).reg 0 = 0x7F ∧
    (stepped (withBytes { fresh false with PC := 0x301 } 0x301 [0x60, 0x7F])).PC = 0x303 := by decide

/-- VA4, VA5: a fetch that leaves memory. -/
theorem test_step_fetch_bounds :
    stepped { fresh false with PC := 0x1000 } =
      { fresh false with PC := 0x1000, run := .faulted ⟨.memBounds, 0x1000, none, some 0x1000⟩ } ∧
    stepped { fresh false with PC := 0xFFF } =
      { fresh false with PC := 0xFFF, run := .faulted ⟨.memBounds, 0xFFF, none, some 0x1000⟩ } := by decide

/-- VA7: 0x0000 is UNIMPL: one diagnostic, PC advanced, no other change. -/
theorem test_step_unimpl :
    stepped (fresh false) =
      { fresh false with PC := 0x202, diaglog := [⟨.unimpl, 0x200, 0x0000, none⟩] } := by decide

/-! ## Control flow -/

/-- L1-1, VB22: CLS. -/
theorem test_cls :
    (after .cls { s0 with fb := Vector.replicate 64 (Vector.replicate 32 true) }).fb = Framebuffer.blank ∧
    (after .cls s0).redraw = true := by decide

/-- VB7: RET pops and does not clear the entry; VB8: underflow. -/
theorem test_ret :
    (after .ret { s0 with SP := 3, stack := s0.stack.set 2 0x456 }).PC = 0x456 ∧
    (after .ret { s0 with SP := 3, stack := s0.stack.set 2 0x456 }).SP = 2 ∧
    (after .ret { s0 with SP := 3, stack := s0.stack.set 2 0x456 }).stack[2] = 0x456 ∧
    (after .ret { s0 with PC := 0x206 }).run = .faulted ⟨.stackUnderflow, 0x204, some 0x00EE, none⟩ := by
  decide

/-- VB1. -/
theorem test_jp : (after (.jp 0x234) s0).PC = 0x234 := by decide

/-- VB5: the 16th entry; VB6: overflow. -/
theorem test_call :
    (after (.call 0x300) { s0 with PC := 0x212, SP := 15 }).stack[15] = 0x212 ∧
    (after (.call 0x300) { s0 with PC := 0x212, SP := 15 }).SP = 16 ∧
    (after (.call 0x300) { s0 with PC := 0x212, SP := 15 }).PC = 0x300 ∧
    after (.call 0x300) { s0 with PC := 0x212, SP := 16 } =
      { s0 with SP := 16, PC := 0x210, run := .faulted ⟨.stackOverflow, 0x210, some 0x2300, none⟩ } := by decide

/-- VB9, VB10. -/
theorem test_seImm :
    (after (.seImm 3 0x05) (s0.setReg 3 0x05)).PC = 0x204 ∧
    (after (.seImm 3 0x05) (s0.setReg 3 0x06)).PC = 0x202 := by decide

/-- VB11, VB12. -/
theorem test_sneImm :
    (after (.sneImm 3 0x05) (s0.setReg 3 0x06)).PC = 0x204 ∧
    (after (.sneImm 3 0x05) (s0.setReg 3 0x05)).PC = 0x202 := by decide

/-- VB13; unequal registers do not skip. -/
theorem test_seReg :
    (after (.seReg 1 2) ((s0.setReg 1 0x40).setReg 2 0x40)).PC = 0x204 ∧
    (after (.seReg 1 2) ((s0.setReg 1 0x40).setReg 2 0x41)).PC = 0x202 := by decide

/-- VB15, VB16. -/
theorem test_sneReg :
    (after (.sneReg 1 2) ((s0.setReg 1 0x40).setReg 2 0x41)).PC = 0x204 ∧ (after (.sneReg 1 1) s0).PC = 0x202 := by
  decide

/-- VB19, VB20: the sum is not reduced to 12 bits. -/
theorem test_jpV0 :
    (after (.jpV0 0x300) (s0.setReg 0 0x10)).PC = 0x310 ∧ (after (.jpV0 0xFFF) (s0.setReg 0 0xFF)).PC = 0x10FE := by
  decide

/-! ## Register and arithmetic -/

/-- VC1. -/
theorem test_ldImm : (after (.ldImm 10 0x05) s0).reg 10 = 0x05 := by decide

/-- VC2: wraps, VF unchanged; VC3: x = F. -/
theorem test_addImm :
    (after (.addImm 0 0x02) ((s0.setReg 0 0xFF).setReg VF 7)).reg 0 = 0x01 ∧
    (after (.addImm 0 0x02) ((s0.setReg 0 0xFF).setReg VF 7)).reg VF = 0x07 ∧
    (after (.addImm VF 0x01) (s0.setReg VF 1)).reg VF = 2 := by decide

/-- VC4. -/
theorem test_ldReg : (after (.ldReg 0 1) (s0.setReg 1 0x12)).reg 0 = 0x12 := by decide

/-- VC5: VF unchanged. -/
theorem test_orReg :
    (after (.orReg 0 1) (((s0.setReg 0 0xF0).setReg 1 0x0F).setReg VF 5)).reg 0 = 0xFF ∧
    (after (.orReg 0 1) (((s0.setReg 0 0xF0).setReg 1 0x0F).setReg VF 5)).reg VF = 5 := by decide

/-- VC6. -/
theorem test_andReg : (after (.andReg 0 1) ((s0.setReg 0 0xF3).setReg 1 0x3F)).reg 0 = 0x33 := by decide

/-- VC7. -/
theorem test_xorReg : (after (.xorReg 0 1) ((s0.setReg 0 0xFF).setReg 1 0x0F)).reg 0 = 0xF0 := by decide

/-- VC9: carry. -/
theorem test_addReg_carry :
    (after (.addReg 0 1) ((s0.setReg 0 0xC8).setReg 1 0x64)).reg 0 = 0x2C ∧
    (after (.addReg 0 1) ((s0.setReg 0 0xC8).setReg 1 0x64)).reg VF = 1 := by decide

/-- VC12: x = F keeps the flag; VC13: y = F reads the old VF. -/
theorem test_addReg_flag_last :
    (after (.addReg VF 1) ((s0.setReg VF 0x10).setReg 1 0xF5)).reg VF = 1 ∧
    (after (.addReg 0 VF) ((s0.setReg 0 0x01).setReg VF 0xFF)).reg 0 = 0 := by decide

/-- VC16: borrow; VC15: equal operands do not borrow. -/
theorem test_sub :
    (after (.sub 0 1) ((s0.setReg 0 0x03).setReg 1 0x05)).reg 0 = 0xFE ∧
    (after (.sub 0 1) ((s0.setReg 0 0x03).setReg 1 0x05)).reg VF = 0 ∧
    (after (.sub 0 1) ((s0.setReg 0 0x05).setReg 1 0x05)).reg VF = 1 := by decide

/-- VC18, VC19. -/
theorem test_subn :
    (after (.subn 0 1) ((s0.setReg 0 0x03).setReg 1 0x0A)).reg 0 = 0x07 ∧
    (after (.subn 0 1) ((s0.setReg 0 0x03).setReg 1 0x0A)).reg VF = 1 ∧
    (after (.subn 0 1) ((s0.setReg 0 0x05).setReg 1 0x03)).reg VF = 0 := by decide

/-- VC21: Vy is shifted; VC22: Vx is, under the quirk. -/
theorem test_shr :
    (after (.shr 0 1) (s0.setReg 1 0x05)).reg 0 = 0x02 ∧ (after (.shr 0 1) (s0.setReg 1 0x05)).reg VF = 1 ∧
    (after (.shr 0 1) (q0.setReg 1 0x05)).reg 0 = 0x00 ∧ (after (.shr 0 1) (q0.setReg 1 0x05)).reg VF = 0 := by
  decide

/-- VC25, VC27. -/
theorem test_shl :
    (after (.shl 0 1) (s0.setReg 1 0x81)).reg 0 = 0x02 ∧ (after (.shl 0 1) (s0.setReg 1 0x81)).reg VF = 1 ∧
    (after (.shl 0 1) (q0.setReg 0 0x80)).reg 0 = 0x00 ∧ (after (.shl 0 1) (q0.setReg 0 0x80)).reg VF = 1 := by
  decide

/-- VC29: the drawn byte is taken off the list. -/
theorem test_rnd :
    (after (.rnd 3 0x0F) { s0 with rndIn := [0xAB, 0xCD] }).reg 3 = 0x0B ∧
    (after (.rnd 3 0x0F) { s0 with rndIn := [0xAB, 0xCD] }).rndIn = [0xCD] := by decide

/-- VC30: whatever byte a free draw gives. -/
theorem test_rnd_free : (after (.rnd 3 0x00) (s0.setReg 3 0xFF)).reg 3 = 0x00 := by
  show Config.rndByte 0 &&& 0 = 0
  simp

/-! ## Display -/

/-- The state of the vectors under CLIP. -/
def c0 : State := { s0 with cfg := { vecCfg false with spriteWrap := .clip } }

/-- Vectors VD1 to VD4 draw glyph "0" at I = 0. -/
def drawAt (s : State) (x0 y0 : Byte) : State := after (.drw 1 2 5) ((s.setReg 1 x0).setReg 2 y0)

/-- VD1: the four corners of the glyph, its hole and the cell left of it; VF and redraw. -/
theorem test_drw_glyph :
    let t := drawAt s0 5 3
    Framebuffer.pixel t.fb 5 3 = true ∧ Framebuffer.pixel t.fb 8 3 = true ∧ Framebuffer.pixel t.fb 8 7 = true ∧
    Framebuffer.pixel t.fb 6 4 = false ∧ Framebuffer.pixel t.fb 4 3 = false ∧ t.reg VF = 0 ∧ t.redraw = true := by
  decide

/-- VD3: wraps at the right and bottom edges; VD4: clips there. -/
theorem test_drw_edges :
    Framebuffer.pixel (drawAt s0 0x3E 0x1E).fb 1 2 = true ∧
    Framebuffer.pixel (drawAt c0 0x3E 0x1E).fb 1 30 = false ∧
    Framebuffer.pixel (drawAt c0 0x3E 0x1E).fb 63 30 =
      true := by decide

/-! ## Index, keypad, timers, memory -/

/-- VE1. -/
theorem test_ldI : (after (.ldI 0x300) s0).I = 0x300 := by decide

/-- VE3, VE6. -/
theorem test_skp :
    (after (.skp 5) ({ s0 with key := s0.key.set 7 true }.setReg 5 0x07)).PC = 0x204 ∧
    (after (.skp 5) (s0.setReg 5 0x10)).run = .faulted ⟨.keyRange, 0x200, some 0xE59E, none⟩ := by decide

/-- VE5, VE7. -/
theorem test_sknp :
    (after (.sknp 5) (s0.setReg 5 0x07)).PC = 0x204 ∧
    (after (.sknp 5) (s0.setReg 5 0xFF)).run = .faulted ⟨.keyRange, 0x200, some 0xE5A1, none⟩ := by decide

/-- VE8. -/
theorem test_ldVxDT : (after (.ldVxDT 12) { s0 with DT := 0x37 }).reg 12 = 0x37 := by decide

/-- VE9: the lowest of keys 3 and 7; VE10: no key. -/
theorem test_ldVxK :
    (after (.ldVxK 11) { s0 with key := (s0.key.set 3 true).set 7 true }).reg 11 = 0x03 ∧
    (after (.ldVxK 11) { s0 with key := (s0.key.set 3 true).set 7 true }).PC = 0x202 ∧
    after (.ldVxK 11) s0 = { s0 with PC := 0x200 } := by decide

/-- VE12: DT is set, and is one less when the tick has ended. -/
theorem test_ldDTVx :
    (after (.ldDTVx 10) (s0.setReg 10 0x3C)).DT = 0x3C ∧
    (endStep (after (.ldDTVx 10) (s0.setReg 10 0x3C))).DT = 0x3B := by decide

/-- VE13, VE14: beep follows the decrement. -/
theorem test_ldSTVx :
    (after (.ldSTVx 1) (s0.setReg 1 2)).ST = 2 ∧ (endStep (after (.ldSTVx 1) (s0.setReg 1 2))).beep = true ∧
    (endStep (after (.ldSTVx 1) (s0.setReg 1 1))).beep = false := by decide

/-- VE16: modulo 65536; VE17: past 0xFFF. -/
theorem test_addI :
    (after (.addI 2) ({ s0 with I := 0xFFFF }.setReg 2 0x02)).I = 0x0001 ∧
    (after (.addI 2) ({ s0 with I := 0x0FF0 }.setReg 2 0x20)).I = 0x1010 := by decide

/-- VE18, VE20. -/
theorem test_ldF :
    (after (.ldF 10) (s0.setReg 10 0x0A)).I = 0x032 ∧ (after (.ldF 0) (s0.setReg 0 0xFF)).I = 0x4FB := by decide

/-- VE21. -/
theorem test_ldB :
    let t := after (.ldB 0) ({ s0 with I := 0x300 }.setReg 0 0x9C)
    t.byteAt 0x300 = 1 ∧ t.byteAt 0x301 = 5 ∧ t.byteAt 0x302 = 6 ∧ t.I = 0x300 := by decide

/-- VE25: the range straddles WP_TOP. -/
theorem test_ldB_protected :
    let t := after (.ldB 0) ({ s0 with I := 0x1FF }.setReg 0 0x9C)
    t.byteAt 0x1FF = 0 ∧ t.byteAt 0x200 = 0 ∧ t.byteAt 0x201 = 6 ∧
    t.diaglog = [⟨.wprot, 0x200, 0xF033, some 0x1FF⟩, ⟨.wprot, 0x200, 0xF033, some 0x200⟩] := by decide

/-- VE28, VE29: I advances, or not under the quirk. -/
theorem test_ldMemVx :
    let t := after (.ldMemVx 2) ((({ s0 with I := 0x300 }.setReg 0 1).setReg 1 2).setReg 2 3)
    t.byteAt 0x300 = 1 ∧ t.byteAt 0x301 = 2 ∧ t.byteAt 0x302 = 3 ∧ t.I = 0x303 ∧
    (after (.ldMemVx 2) { q0 with I := 0x300 }).I = 0x300 := by decide

/-- VE32: nothing is written when the range leaves memory. -/
theorem test_ldMemVx_bounds :
    after (.ldMemVx 1) { s0 with I := 0xFFF } =
      { s0 with I := 0xFFF, PC := 0x200, run := .faulted ⟨.memBounds, 0x200, some 0xF155, some 0x1000⟩ } := by
  decide

/-- VE35: the font is read from 0x000. -/
theorem test_ldVxMem :
    let t := after (.ldVxMem 4) s0
    t.reg 0 = 0xF0 ∧ t.reg 1 = 0x90 ∧ t.reg 4 = 0xF0 ∧ t.I = 0x005 ∧ (after (.ldVxMem 4) q0).I = 0x000 := by decide

/-! ## Ticks and reset -/

/-- VF2: one TICK of a self-jump decrements both timers once and beeps. -/
theorem test_tick_timers :
    let t := nextOr s0 (tick (Vector.replicate 16 false)
      (withBytes { fresh false with DT := 5, ST := 3 } 0x200 [0x12, 0x00]))
    t.DT = 4 ∧ t.ST = 2 ∧ t.beep = true ∧ t.PC = 0x200 := by decide

/-- VF4: a fault ends the tick with no decrement. -/
theorem test_tick_fault :
    let t := nextOr s0 (tick (Vector.replicate 16 false)
      (withBytes { fresh false with DT := 5, cfg := { vecCfg false with cyclesPerTick := 2 } } 0x200 [0x00, 0xEE]))
    t.run = .faulted ⟨.stackUnderflow, 0x200, some 0x00EE, none⟩ ∧ t.DT = 5 ∧ t.beep = false := by decide

/-- VF6: the keys of the TICK are the ones E09E sees. -/
theorem test_step_latches_keys :
    let keys : Keypad := (Vector.replicate 16 false).set 0 true
    let s := withBytes { fresh false with host := [.tick keys] } 0x200 [0xE0, 0x9E]
    (nextOr s (step s)).PC = 0x204 ∧ (nextOr s (step s)).host = [] := by decide

/-- VG1: RESET with the ROM A2 2A. -/
theorem test_reset_rom :
    let t := nextOr s0 (construct (vecCfg false) [0xA2, 0x2A])
    t.byteAt 0x200 = 0xA2 ∧ t.byteAt 0x201 = 0x2A ∧ t.byteAt 0x202 = 0 ∧ t.byteAt 0x04F = 0x80 ∧
    t.byteAt 0x050 = 0 ∧ t.PC = 0x200 := by decide

/-- A word placed before listed commands runs in the next step: those ahead of the TICK are dropped (log entry 11). -/
theorem test_withFetchWord_drops_commands :
    let s := { halted with host := [.ackRedraw, .reset (vecCfg true) [], .tick keys3and15, .ackRedraw] }
    (nextOr s (step (s.withFetchWord 16 0xFB0A))).reg 11 = 3 ∧
    (nextOr s (step (s.withFetchWord 16 0xFB0A))).host = [.ackRedraw] := by decide

/-- The word placed is the one the next step runs, as the first instruction after reset. -/
theorem test_withFetchWord :
    (nextOr s0 (step (State.reset.withFetchWord 16 0x6A05))).reg 10 = 5 ∧
    (nextOr s0 (step (State.reset.withFetchWord 16 0x6A05))).PC = 0x202 := by decide

/-! ## Witnesses: hypotheses that are met

One theorem for each statement with hypotheses: a concrete state and operands that meet them together, for a
statement with several clauses each clause at a boundary of its range. -/

/-- A state with an instruction's word at 0xFFE and PC there, the highest address a word can be fetched at. -/
def atTop (w : Word) : State := withBytes { fresh false with PC := 0xFFE } 0xFFE [hiByte w, loByte w]

theorem witness_DecodeOfEncodeIsTheInstr : (Instr.ldVxMem 15).wellFormed = true := by decide

theorem witness_EncodeOfDecodeIsTheWord :
    decodeWord 0x912F = .instr (.sneReg 1 2) ∧ decodeWord 0xDFFF = .instr (.drw 15 15 15) := by decide

theorem witness_DecodeTreeByFamily :
    (0x0FFF : Word).toNat / 4096 = 0x0 ∧ (0x8000 : Word).toNat / 4096 = 0x8 ∧ (0x8000 : Word).toNat % 16 = 0x0 ∧
    (0x8FFF : Word).toNat / 4096 = 0x8 ∧ (0x8FFF : Word).toNat % 16 ∈ [0x8, 0x9, 0xA, 0xB, 0xC, 0xD, 0xF] ∧
    ∀ k ∈ [0x1, 0x2, 0x3, 0x4, 0x5, 0x6, 0x7, 0xE], (BitVec.ofNat 16 (0x8FF0 + k)).toNat % 16 = k := by decide

theorem witness_DecodeTreeByFamily_top_nibble :
    ∀ k ∈ [0x1, 0x2, 0x3, 0x4, 0x5, 0x6, 0x7, 0x9, 0xA, 0xB, 0xC, 0xD],
      (BitVec.ofNat 16 (k * 4096 + 0xFFF)).toNat / 4096 = k := by decide

theorem witness_UnimplWordIsDiagnosedNoOp :
    (atTop 0x0FFF).run = .running ∧ (atTop 0x0FFF).PC.toNat ≤ 0xFFE ∧ UnimplWord (wordAtPC (atTop 0x0FFF)).toNat ∧
    UnimplWord (wordAtPC (atTop 0x800F)).toNat ∧ UnimplWord (wordAtPC (atTop 0xEF9F)).toNat ∧
    UnimplWord (wordAtPC (atTop 0xFFFF)).toNat ∧ ¬UnimplWord 0x00E0 ∧ ¬UnimplWord 0x1000 := by
  refine ⟨by decide, by decide, .inl ?_, .inr (.inl ?_), .inr (.inr (.inl ?_)), .inr (.inr (.inr ?_)), ?_, ?_⟩
  · decide
  · decide
  · decide
  · decide
  · unfold UnimplWord; decide
  · unfold UnimplWord; decide

theorem witness_FetchIsBigEndianInBounds :
    (atTop 0x1234).PC.toNat = 0xFFE ∧ ({ s0 with PC := 0xFFF } : State).PC.toNat = 0xFFF ∧
    0xFFF < ({ s0 with PC := 0x1000 } : State).PC.toNat := by decide

theorem witness_StepRunsTheDecodedInstr :
    (atTop 0x00E0).run = .running ∧ (atTop 0x00E0).PC.toNat ≤ 0xFFE ∧
    decodeWord (wordAtPC (atTop 0x00E0)) = .instr .cls ∧ (atTop 0x00E0).tickStep = 0 ∧ (atTop 0x00E0).host = [] ∧
    decodeWord (wordAtPC { atTop 0x00E0 with tickStep := 1 }) = .instr .cls ∧
    decodeWord (wordAtPC { atTop 0x00E0 with host := [.tick (fresh false).key] }) = .instr .cls := by decide

theorem witness_EndStepMovesTheTickOn :
    halted.run ≠ .running ∧
    (fourSteps.run = .running ∧ fourSteps.tickStep + 1 < fourSteps.cfg.cyclesPerTick) ∧
    (fresh false).run = .running ∧ (fresh false).cfg.cyclesPerTick ≤ (fresh false).tickStep + 1 := by decide

/-- The three ways a state can fetch already: mid-tick, a boundary with no command, a boundary before a TICK. -/
theorem witness_WithFetchWordIsFetched :
    (∃ t, t = (atTop 0x00E0).withFetchWord 16 (0x6A05 : Word).toNat) ∧
    (atTop 0x00E0).run = .running ∧ (atTop 0x00E0).PC.toNat ≤ 0xFFE ∧ (atTop 0x00E0).host = [] ∧
    ({ atTop 0x00E0 with tickStep := 1, host := [.ackRedraw] } : State).tickStep ≠ 0 ∧
    ({ atTop 0x00E0 with host := [.tick keys3and15] } : State).host = .tick keys3and15 :: [] :=
  ⟨⟨_, rfl⟩, by decide, by decide, by decide, by decide, by decide⟩

theorem witness_StoreIsSeenByTheNextFetch :
    (fresh false).PC.toNat ≤ 0xFFE ∧ (fresh false).cfg.wpTop.toNat < (fresh false).PC.toNat + 1 ∧
    (atTop 0).PC.toNat ≤ 0xFFE ∧ (atTop 0).cfg.wpTop.toNat < (atTop 0).PC.toNat := by decide

theorem witness_StepFaultsPreciselyWhenExpected :
    (fresh false).run = .running ∧
    expectedFault { fresh false with PC := 0xFFF } = some ⟨.memBounds, 0xFFF, none, some 0x1000⟩ ∧
    expectedFault { atTop 0x00EE with SP := 0 } = some ⟨.stackUnderflow, 0xFFE, some 0x00EE, none⟩ ∧
    expectedFault { atTop 0x00EE with SP := 1 } = none ∧
    expectedFault { atTop 0x2300 with SP := 16 } = some ⟨.stackOverflow, 0xFFE, some 0x2300, none⟩ ∧
    expectedFault { atTop 0x2300 with SP := 15 } = none := by decide

theorem witness_StepFaultsPreciselyWhenExpected_operands :
    expectedFault ((atTop 0xE59E).setReg 5 0x10) = some ⟨.keyRange, 0xFFE, some 0xE59E, none⟩ ∧
    expectedFault ((atTop 0xE5A1).setReg 5 0x10) = some ⟨.keyRange, 0xFFE, some 0xE5A1, none⟩ ∧
    expectedFault ((atTop 0xE5A1).setReg 5 0x0F) = none ∧
    expectedFault { atTop 0xF033 with I := 0xFFE } = some ⟨.memBounds, 0xFFE, some 0xF033, some 0x1000⟩ ∧
    expectedFault { atTop 0xF033 with I := 0xFFD } = none ∧
    expectedFault { atTop 0xD120 with I := 0xFFFF } = none ∧ expectedFault (atTop 0x0000) = none := by decide

theorem witness_HaltedCoreDoesNothing :
    halted.run = .faulted ⟨.memBounds, 0x1000, none, some 0x1000⟩ ∧ halted.host = [] ∧
    ({ halted with host := [.tick (fresh false).key] } : State).host = [.tick (fresh false).key] := by decide

/-- Both refusals do occur. -/
theorem witness_StepAnswersNextUnlessResetRefused :
    step { fresh false with host := [.reset { vecCfg false with cyclesPerTick := 0 } []] } = .refused .badConfig ∧
    step { halted with host := [.reset (vecCfg false) (List.replicate 3585 0)] } = .refused .romTooLong := by
  have h : ∀ c rom, step { halted with host := [.reset c rom] } =
      onNext (fun t => { t with host := [], rndIn := [], draws := 0 }) (construct c rom) := fun _ _ => rfl
  rw [h, test_wellFormed_refuses_long_rom.2.2]
  exact ⟨rfl, rfl⟩

theorem witness_DataRangeFaultsBeforeAnyAccess :
    (1 ≤ rangeBytes (.ldB 0) ∧ 0x1000 < ({ s0 with I := 0xFFE } : State).I.toNat + rangeBytes (.ldB 0)) ∧
    (1 ≤ rangeBytes (.drw 0 0 1) ∧ 0x1000 < ({ s0 with I := 0x1000 } : State).I.toNat + rangeBytes (.drw 0 0 1)) ∧
    (1 ≤ rangeBytes (.ldMemVx 15) ∧ 0x1000 < ({ s0 with I := 0xFF1 } : State).I.toNat + rangeBytes (.ldMemVx 15)) ∧
    (1 ≤ rangeBytes (.ldVxMem 0) ∧ 0x1000 < ({ s0 with I := 0xFFFF } : State).I.toNat + rangeBytes (.ldVxMem 0)) := by
  decide

theorem witness_StepAppendsDiagnosticsOfItsOwnPC :
    (∃ t, engineStep (fresh false) = .next t) ∧
    (∃ t, engineStep (atTop 0x00EE) = .next t ∧ t.run ≠ (atTop 0x00EE).run) := ⟨⟨_, rfl⟩, _, rfl, by decide⟩

theorem witness_ProtectedWriteIsDroppedWithDiagnostic :
    0x200 ≤ s0.cfg.wpTop.toNat ∧ (∃ t, exec (.ldB 0) { s0 with I := 0x1FF } = .next t) ∧
    (∃ t, exec (.ldVxMem 0) s0 = .next t) ∧ (∀ x, Instr.ldVxMem 0 ≠ .ldB x ∧ Instr.ldVxMem 0 ≠ .ldMemVx x) :=
  ⟨by decide, ⟨_, rfl⟩, ⟨_, rfl⟩, by decide⟩

theorem witness_ProtectedWriteIsDroppedWithDiagnostic_step :
    ∃ t ds, engineStep { atTop 0xF055 with I := 0x200 } = .next t ∧
      t.diaglog = ({ atTop 0xF055 with I := 0x200 } : State).diaglog ++ ds ∧ ∃ d ∈ ds, d.cause = .wprot :=
  ⟨_, [⟨.wprot, 0xFFE, 0xF055, some 0x200⟩], rfl, by decide, by decide⟩

theorem witness_OnlyListedInstrsWriteEachComponent :
    (∃ t, exec (.jp 0x300) { s0 with redraw := true } = .next t) ∧ WritesV (.jp 0x300) = false ∧
    (∃ t, exec .cls s0 = .next t ∧ t.run = .running) ∧ WritesPC .cls = false ∧ s0.run = .running ∧
    (∀ n, Instr.cls ≠ .call n) ∧ Instr.jp 0x300 ≠ .cls ∧ (∀ x y n, Instr.jp 0x300 ≠ .drw x y n) ∧
    (∃ t, exec (.ldMemVx 0) q0 = .next t) ∧ q0.cfg.loadStoreQuirk = true :=
  ⟨⟨_, rfl⟩, rfl, ⟨_, rfl, rfl⟩, rfl, rfl, by simp, by simp, by simp, ⟨_, rfl⟩, rfl⟩

theorem witness_HostOnlyStateIsNotObserved : ∃ t, exec (.ldSTVx 1) s0 = .next t := ⟨_, rfl⟩

/-- A core inside a tick, one call deep, that meets the invariant and takes a step. -/
theorem witness_EveryStepKeepsTheInvariant :
    let s := { withBytes { fresh false with PC := 0x300 } 0x300 [0x00, 0xEE] with
      cfg := { vecCfg false with cyclesPerTick := 4 }, tickStep := 3, SP := 1,
      stack := (Vector.replicate 16 0).set 0 0x202 }
    s.Inv ∧ ∃ t, step s = .next t := by
  refine ⟨⟨by decide, by decide, by decide, by decide, fun a ha _ => ?_, fun j hj hs => ?_, by decide⟩, _, rfl⟩
  · have hu : Memory.unlisted Config.font 0x300 = 0 ∧ Memory.unlisted Config.font 0x301 = 0 := by decide
    have h : a < 0x200 := ha
    show Memory.read Config.font [(0x301, 0xEE)] a = _
    simp only [Memory.read, Memory.lookup, if_neg (show ¬a = 0x301 by omega), Option.getD_none]
    rfl
  · have h : j < 1 := hs
    obtain rfl : j = 0 := by omega
    exact ⟨show 2 ≤ (0x202 : Word).toNat by decide, show (0x202 : Word).toNat ≤ 0x1000 by decide⟩

theorem witness_ResetLeavesTheListedValues : ∃ t, construct (vecCfg false) [0xA2, 0x2A] = .next t := ⟨_, rfl⟩

theorem witness_ResetPreloadsTheFont : ∃ t, construct (vecCfg true) [] = .next t ∧ 15 < 16 ∧ 4 < 5 :=
  ⟨_, rfl, by decide, by decide⟩

theorem witness_ResetLoadsTheRomVerbatim :
    1 ≤ (vecCfg false).cyclesPerTick ∧ (List.replicate 3584 (0xA2 : Byte)).length ≤ 3584 ∧
    3584 < (List.replicate 3585 (0xA2 : Byte)).length := by
  rw [List.length_replicate, List.length_replicate]
  decide

theorem witness_TickIsReachedByItsSteps :
    let s := { fourSteps with host := [.tick (fresh false).key] }
    s.run = .running ∧ s.tickStep = 0 ∧ 1 ≤ s.cfg.cyclesPerTick ∧ s.host = .tick (fresh false).key :: [] := by decide

theorem witness_TimersCountDownOncePerTick :
    ((fresh false).run = .running ∧ (fresh false).cfg.cyclesPerTick ≤ (fresh false).tickStep + 1) ∧
    halted.run ≠ .running ∧
    (∃ t, engineStep ((atTop 0xFA15).setReg 10 1) = .next t ∧ t.DT ≠ ((atTop 0xFA15).setReg 10 1).DT) ∧
    (∃ t, engineStep ((atTop 0xF118).setReg 1 1) = .next t ∧ t.ST ≠ ((atTop 0xF118).setReg 1 1).ST) ∧
    (∃ t, step { fresh false with host := [.ackRedraw] } = .next t) :=
  ⟨by decide, by decide, ⟨_, rfl, by decide⟩, ⟨_, rfl, by decide⟩, ⟨_, rfl⟩⟩

theorem witness_BeepIsSoundTimerAfterDecrement :
    let u := { fresh false with ST := 1 }
    u.run = .running ∧ u.cfg.cyclesPerTick ≤ u.tickStep + 1 ∧ u.ST = 1 ∧ halted.run ≠ .running := by decide

theorem witness_KeypadIsLatchedPerTick :
    (∃ t, step { fresh false with host := [.tick (fresh false).key] } = .next t) ∧
    (∃ t, exec .cls s0 = .next t) ∧ (∃ t, step { fresh false with tickStep := 1 } = .next t) ∧
    (∃ t, step { halted with host := [.ackRedraw] } = .next t) ∧
    ({ halted with host := [.ackRedraw] } : State).atBoundary = true ∧
    (∃ t, tick (fresh false).key (fresh false) = .next t) :=
  ⟨⟨_, rfl⟩, ⟨_, rfl⟩, ⟨_, rfl⟩, ⟨_, rfl⟩, by decide, ⟨_, rfl⟩⟩

theorem witness_HostCommandsActAtTickBoundaries :
    (fresh false).atBoundary = true ∧ ({ halted with host := [.reset (vecCfg true) [0xA2]] } : State).atBoundary = true ∧
    ∃ t, construct (vecCfg true) [0xA2] = .next t := ⟨by decide, by decide, _, rfl⟩

theorem witness_OnlyResetChangesCfgOrLeavesFaulted :
    (∃ t, step halted = .next t) ∧ halted.run ≠ .running ∧ (∀ cfg rom rest, halted.host ≠ .reset cfg rom :: rest) ∧
    (∃ t, step { fresh false with tickStep := 1, host := [.reset (vecCfg true) []] } = .next t) ∧
    ({ fresh false with tickStep := 1, host := [.reset (vecCfg true) []] } : State).atBoundary = false :=
  ⟨⟨_, rfl⟩, by decide, (by intro _ _ _ h; cases h), ⟨_, rfl⟩, by decide⟩

theorem witness_RetPopsOrUnderflows :
    0 < ({ s0 with SP := 1 } : State).SP.val ∧ 0 < ({ s0 with SP := 16 } : State).SP.val ∧ s0.SP = 0 := by decide

theorem witness_CallPushesOrOverflows :
    ({ s0 with SP := 15 } : State).SP.val < 16 ∧ ({ s0 with SP := 16 } : State).SP = 16 := by decide

theorem witness_LoadAddImmediateAndCopyWriteVx : (VF : Reg) ≠ 14 := by decide

theorem witness_LogicWritesVxAndNoFlag : (VF : Reg) ≠ 0 := by decide

theorem witness_AddSetsSumThenCarry : (14 : Reg) ≠ VF ∧ (0 : Reg) ≠ 14 := by decide

theorem witness_SubtractsSetDifferenceThenNotBorrow : (14 : Reg) ≠ VF ∧ (0 : Reg) ≠ 14 := by decide

theorem witness_ShiftsSetResultThenBitShiftedOut :
    (5 : Byte) = (if (s0.setReg 1 5).cfg.shiftQuirk = true then (s0.setReg 1 5).reg 0 else (s0.setReg 1 5).reg 1) ∧
    (0 : Byte) = (if (q0.setReg 1 5).cfg.shiftQuirk = true then (q0.setReg 1 5).reg 0 else (q0.setReg 1 5).reg 1) := by
  decide

theorem witness_RndMasksOneDrawnByte :
    ({ s0 with rndIn := [0xAB] } : State).rndIn = 0xAB :: [] ∧ s0.rndIn = [] := by decide

/-- Glyph "0" covers its corner cell and not its hole; a lit covered cell; nothing lit; the ranges that just fit. -/
theorem witness_DrawTogglesTheSpriteCells :
    SpriteCovers s0 5 3 5 5 3 ∧ ¬SpriteCovers s0 5 3 0 5 3 ∧
    Framebuffer.pixel (drawAt s0 5 3).fb 5 3 = true ∧ (∀ c r, Framebuffer.pixel s0.fb c r = false) ∧
    ({ s0 with I := 0xFFB } : State).I.toNat + (5 : Fin 16).val ≤ 0x1000 ∧
    ((0 : Fin 16).val = 0 ∧ ({ s0 with I := 0xFFFF } : State).I.toNat = 0xFFFF) :=
  ⟨⟨0, by decide, 0, by decide, by decide, by decide, by decide⟩, fun ⟨_, h, _⟩ => absurd h (by omega), by decide,
    fun c r => Framebuffer.pixel_blank c r, by decide, by decide, by decide⟩

/-- Under CLIP the cell past the right edge is not covered. -/
theorem witness_DrawTogglesTheSpriteCells_clip :
    SpriteCovers c0 0x3E 0x1E 5 63 30 ∧ ¬SpriteCovers c0 0x3E 0x1E 5 0 30 :=
  ⟨⟨0, by decide, 1, by decide, by decide, by decide, by decide⟩,
    fun ⟨_, _, col, _, _, h⟩ => absurd (show (0 : Nat) = 62 + col from h.1) (by omega)⟩

theorem witness_DrawingTwiceRestoresTheScreen :
    (1 : Reg) ≠ VF ∧ (2 : Reg) ≠ VF ∧ ({ s0 with I := 0xFF1 } : State).I.toNat + (15 : Fin 16).val ≤ 0x1000 := by
  decide

theorem witness_DrawAfterClearHasNoCollision : s0.I.toNat + (15 : Fin 16).val ≤ 0x1000 := by decide

theorem witness_KeySkipsTestTheKeypad :
    ((s0.setReg 5 0x0F).reg 5).toNat < 16 ∧ 0xF < ((s0.setReg 5 0x10).reg 5).toNat := by decide

theorem witness_KeyWaitStoresLeastKeyOrRewinds :
    keys3and15[(3 : Reg).val] = true ∧ (∀ j : Reg, j < 3 → keys3and15[j.val]'j.isLt = false) ∧
    (∀ k : Reg, s0.key[k.val]'k.isLt = false) ∧ (atTop 0xFB0A).run = .running ∧ (atTop 0xFB0A).PC.toNat ≤ 0xFFE ∧
    decodeWord (wordAtPC (atTop 0xFB0A)) = .instr (.ldVxK 11) ∧
    (∀ k : Reg, (atTop 0xFB0A).key[k.val]'k.isLt = false) := by decide

theorem witness_TimerMovesCopyOneByte : s0.run = .running ∧ s0.cfg.cyclesPerTick ≤ s0.tickStep + 1 := by decide

theorem witness_BcdStoresThreeDigits :
    ({ s0 with I := 0xFFD } : State).I.toNat + 3 ≤ 0x1000 ∧
    s0.cfg.wpTop.toNat < ({ s0 with I := 0x201 } : State).I.toNat ∧
    s0.cfg.wpTop.toNat < ({ s0 with I := 0x200 } : State).I.toNat + 1 ∧
    s0.cfg.wpTop.toNat < ({ s0 with I := 0x1FF } : State).I.toNat + 2 := by decide

theorem witness_BlockStoreWritesTheRegisters :
    ({ s0 with I := 0xFF0 } : State).I.toNat + (15 : Reg).val + 1 ≤ 0x1000 ∧ (15 : Reg) ≤ 15 ∧
    s0.cfg.wpTop.toNat < ({ s0 with I := 0x200 } : State).I.toNat + (1 : Reg).val := by decide

theorem witness_BlockLoadReadsTheRegisters :
    ({ s0 with I := 0xFF1 } : State).I.toNat + (14 : Reg).val + 1 ≤ 0x1000 ∧ (14 : Reg) ≤ 14 ∧ (14 : Reg) < 15 := by
  decide

theorem witness_BlockStoreThenLoadRestores :
    let s := { s0 with I := 0xFF0 }
    s.I.toNat + (15 : Reg).val + 1 ≤ 0x1000 ∧ s.cfg.wpTop.toNat < s.I.toNat ∧
    ∃ t u : State, exec (.ldMemVx 15) s = .next t ∧ (∀ a, u.byteAt a = t.byteAt a) ∧ u.I = s.I := by
  obtain ⟨t, ht, -⟩ := exec_effect (.ldMemVx 15) { s0 with I := 0xFF0 }
  exact ⟨by decide, by decide, t, { t with I := 0xFF0 }, ht, fun _ => rfl, rfl⟩

end Sys2Proof.Tests
end

section
/-! The decoder's UNIMPL words (R77), family by family, and the Step that fetches one. -/

namespace Sys2Proof

/-! ## Fields of a word as digits of its value (R70) -/

theorem fieldOp_eq_div (w : Word) : fieldOp w = w.toNat / 4096 := by
  rw [fieldOp, BitVec.extractLsb'_toNat, Nat.shiftRight_eq_div_pow]
  omega

theorem val_fieldN_eq_mod (w : Word) : (fieldN w).val = w.toNat % 16 := by
  simp only [fieldN, BitVec.val_toFin, BitVec.extractLsb'_toNat, Nat.shiftRight_zero, Nat.reducePow]

theorem toNat_fieldKK_eq_mod (w : Word) : (fieldKK w).toNat = w.toNat % 256 := by
  simp only [fieldKK, BitVec.extractLsb'_toNat, Nat.shiftRight_zero, Nat.reducePow]

/-! ## The families that hold UNIMPL words (R73 to R75) -/

theorem decode0_unimpl_iff (w : Word) :
    (∃ f, decode0 w = .unimpl f) ↔ w.toNat ≠ 0x00E0 ∧ w.toNat ≠ 0x00EE := by
  have hcls : w.toNat = 0x00E0 ↔ w = 0x00E0 := BitVec.toNat_inj (y := 0x00E0)
  have hret : w.toNat = 0x00EE ↔ w = 0x00EE := BitVec.toNat_inj (y := 0x00EE)
  rw [Ne, Ne, hcls, hret, decode0]
  split_ifs with h h'
  · simp [h]
  · simp [h']
  · exact iff_of_true ⟨_, rfl⟩ ⟨h, h'⟩

theorem decode8_unimpl_iff (w : Word) :
    (∃ f, decode8 w = .unimpl f) ↔ w.toNat % 16 ∈ [0x8, 0x9, 0xA, 0xB, 0xC, 0xD, 0xF] := by
  rw [← val_fieldN_eq_mod, decode8]
  have hlt := (fieldN w).isLt
  split
  case h_10 => simp_all; omega
  all_goals simp [*]

theorem decodeE_unimpl_iff (w : Word) :
    (∃ f, decodeE w = .unimpl f) ↔ w.toNat % 256 ∉ [0x9E, 0xA1] := by
  rw [← toNat_fieldKK_eq_mod, decodeE]
  split <;> simp_all

theorem decodeF_unimpl_iff (w : Word) :
    (∃ f, decodeF w = .unimpl f) ↔
      w.toNat % 256 ∉ [0x07, 0x0A, 0x15, 0x18, 0x1E, 0x29, 0x33, 0x55, 0x65] := by
  rw [← toNat_fieldKK_eq_mod, decodeF]
  split <;> simp_all

/-- The decode tree by its top nibble (R72): four families decode further, and in every other the word is
an instruction (R76). -/
theorem decodeWord_cases (w : Word) :
    (w.toNat / 4096 = 0x0 ∧ decodeWord w = decode0 w) ∨
    (w.toNat / 4096 = 0x8 ∧ decodeWord w = decode8 w) ∨
    (w.toNat / 4096 = 0xE ∧ decodeWord w = decodeE w) ∨
    (w.toNat / 4096 = 0xF ∧ decodeWord w = decodeF w) ∨
    (w.toNat / 4096 ∉ [0x0, 0x8, 0xE, 0xF] ∧ ∃ i, decodeWord w = .instr i) := by
  rw [← fieldOp_eq_div, decodeWord]
  have hlt : fieldOp w < 16 := (w.extractLsb' 12 4).isLt
  split
  case h_16 =>
    have hF : fieldOp w = 0xF := by simp only [imp_false] at *; omega
    simp [hF]
  all_goals simp [*]

end Sys2Proof

namespace Sys2Proof.Claims

open Sys2Proof.Machine

/-- UNIMPL is the decode result of exactly the words R77 lists. -/
theorem decodeWord_unimpl_iff (w : Word) : (∃ f, decodeWord w = .unimpl f) ↔ UnimplWord w.toNat := by
  unfold UnimplWord
  rcases decodeWord_cases w with ⟨h, e⟩ | ⟨h, e⟩ | ⟨h, e⟩ | ⟨h, e⟩ | ⟨h, i, e⟩
  · have hle : w.toNat ≤ 0x0FFF := by omega
    simp [e, decode0_unimpl_iff, h, hle]
  · have hgt : ¬ w.toNat ≤ 0x0FFF := by omega
    simp [e, decode8_unimpl_iff, h, hgt]
  · have hgt : ¬ w.toNat ≤ 0x0FFF := by omega
    simp [e, decodeE_unimpl_iff, h, hgt]
  · have hgt : ¬ w.toNat ≤ 0x0FFF := by omega
    simp [e, decodeF_unimpl_iff, h, hgt]
  · simp only [List.mem_cons, List.not_mem_nil, or_false, not_or] at h
    have hgt : ¬ w.toNat ≤ 0x0FFF := by omega
    simp [e, h, hgt]

end Sys2Proof.Claims

namespace Sys2Proof.Machine

/-- The Step of a running core that fetches an UNIMPL word is one diagnostic, on the advanced state (R77). -/
theorem engineStep_of_unimpl {s : State} {w : Word} {f : UnimplFamily} (hr : s.run = .running)
    (hf : fetch s = .word w) (hd : decodeWord w = .unimpl f) :
    engineStep s = .next (s.advance.diag .unimpl w none) := by
  simp only [engineStep, hr, hf, hd, execUnimpl]

/-- A record emitted on the advanced state holds PC_i, the PC before the advance (R25, R162). -/
theorem State.advance_diag (s : State) (c : DiagCause) (w : Word) (a : Option Nat) :
    s.advance.diag c w a = { s with PC := s.PC + 2, diaglog := s.diaglog ++ [⟨c, s.PC, w, a⟩] } := by
  have hpc : s.advance.instrAddr = s.PC := BitVec.add_sub_cancel s.PC 2
  rw [State.diag, hpc]
  rfl

end Sys2Proof.Machine

namespace Sys2Proof.Claims

open Sys2Proof.Machine

/-- Settles O5: the words of R77 by the families of the decode tree, and the Step from the fetch in
bounds and the diagnostic on the advanced state. -/
theorem unimplWordIsDiagnosedNoOp : Obligations.UnimplWordIsDiagnosedNoOp := by
  refine ⟨decodeWord_unimpl_iff, fun s hr hpc hw => ?_⟩
  obtain ⟨f, hd⟩ := (decodeWord_unimpl_iff (wordAtPC s)).mpr hw
  rw [engineStep_of_unimpl hr (fetch_of_le hpc) hd, State.advance_diag]
  rfl

end Sys2Proof.Claims
end

section
/-! The words that decode to CLS and to JP nnn, and what the two instructions leave (R91, R93). -/

namespace Sys2Proof

/-! ## The top nibble of a decoded word is its instruction's (R72) -/

theorem decode0_instr_fieldOp {w : Word} {i : Instr} (h : decode0 w = .instr i) : fieldOp (encode i) = 0x0 := by
  unfold decode0 at h
  split_ifs at h <;> cases h <;> decide

theorem decode8_instr_fieldOp {w : Word} {i : Instr} (h : decode8 w = .instr i) : fieldOp (encode i) = 0x8 := by
  unfold decode8 at h
  split at h <;> cases h <;> exact fieldOp_packXYN ..

theorem decodeE_instr_fieldOp {w : Word} {i : Instr} (h : decodeE w = .instr i) : fieldOp (encode i) = 0xE := by
  unfold decodeE at h
  split at h <;> cases h <;> exact fieldOp_packXKK ..

theorem decodeF_instr_fieldOp {w : Word} {i : Instr} (h : decodeF w = .instr i) : fieldOp (encode i) = 0xF := by
  unfold decodeF at h
  split at h <;> cases h <;> exact fieldOp_packXKK ..

theorem fieldOp_lt (w : Word) : fieldOp w < 16 := (w.extractLsb' 12 4).isLt

/-- A word that decodes to an instruction lies in the family of that instruction's own encoding. -/
theorem fieldOp_eq_of_decodeWord {w : Word} {i : Instr} (h : decodeWord w = .instr i) :
    fieldOp w = fieldOp (encode i) := by
  unfold decodeWord at h
  split at h
  case h_1 h0 => rw [h0, decode0_instr_fieldOp h]
  case h_9 h8 => rw [h8, decode8_instr_fieldOp h]
  case h_15 hE => rw [hE, decodeE_instr_fieldOp h]
  case h_16 =>
    have hlt := fieldOp_lt w
    rw [decodeF_instr_fieldOp h]
    simp only [imp_false] at *
    omega
  all_goals cases h; simp [*, encode]

/-! ## The words of CLS and JP nnn (30_encoding.md section 4) -/

theorem decodeWord_eq_cls_iff (w : Word) : decodeWord w = .instr .cls ↔ w = 0x00E0 := by
  constructor
  · intro h
    have hop : fieldOp w = 0x0 := (fieldOp_eq_of_decodeWord h).trans (by decide)
    simp only [decodeWord, hop, decode0] at h
    split_ifs at h with hw
    · exact hw
    · cases h
  · rintro rfl
    decide

theorem decodeWord_eq_jp_iff (w : Word) (nnn : BitVec 12) :
    decodeWord w = .instr (.jp nnn) ↔ w = packNNN 0x1 nnn := by
  constructor
  · intro h
    have hop : fieldOp w = (0x1 : BitVec 4).toNat := (fieldOp_eq_of_decodeWord h).trans (fieldOp_packNNN ..)
    have hd : decodeWord w = .instr (.jp (fieldNNN w)) := by simp [decodeWord, hop]
    obtain rfl : fieldNNN w = nnn := by simpa [hd] using h
    exact (packNNN_fields hop).symm
  · rintro rfl
    simp [decodeWord]

theorem toNat_packNNN (op : BitVec 4) (nnn : BitVec 12) :
    (packNNN op nnn).toNat = op.toNat * 4096 + nnn.toNat := by
  rw [packNNN, BitVec.toNat_append, ← Nat.shiftLeft_add_eq_or_of_lt nnn.isLt, Nat.shiftLeft_eq]

end Sys2Proof

namespace Sys2Proof.Machine

@[simp] theorem toNat_zext16 (nnn : BitVec 12) : (zext16 nnn).toNat = nnn.toNat :=
  BitVec.toNat_setWidth_of_le (by decide)

/-! ## The frames of clearing the screen and of a transfer of control -/

/-- CLS writes the framebuffer and the redraw flag only. -/
theorem unchangedBut_clearScreen (s : State) :
    UnchangedBut [.fb, .redraw] s { s with fb := Framebuffer.blank, redraw := true } := by
  intro c hc
  cases c
  case fb | redraw => simp at hc
  case mem | V => exact fun _ => rfl
  all_goals rfl

/-- A transfer of control writes PC only. -/
theorem State.unchangedBut_setPC (s : State) (v : Word) : UnchangedBut [.PC] s (s.setPC v) := by
  intro c hc
  cases c
  case PC => simp at hc
  case mem | V => exact fun _ => rfl
  all_goals rfl

end Sys2Proof.Machine

namespace Sys2Proof.Claims

open Sys2Proof.Machine

/-- An instruction to which one word alone decodes. -/
theorem DecodesExactly.of_iff {w₀ : Word} {n : Nat} {i : Instr} (hn : w₀.toNat = n)
    (h : ∀ w, decodeWord w = .instr i ↔ w = w₀) : DecodesExactly n i := fun w => by
  rw [h w, ← hn, BitVec.toNat_inj]

/-- Settles O31: family 0 compares the whole word, and the screen CLS leaves is the blank one. -/
theorem clsClearsTheScreen : Obligations.ClsClearsTheScreen :=
  ⟨.of_iff rfl decodeWord_eq_cls_iff,
    fun s => ⟨_, rfl, Framebuffer.pixel_blank, rfl, unchangedBut_clearScreen s⟩⟩

/-- Settles O33: a word of family 1 is packed from its field nnn, which JP extends with zeros into PC. -/
theorem jpTransfersControl : Obligations.JpTransfersControl := fun nnn =>
  ⟨.of_iff (toNat_packNNN 0x1 nnn) (decodeWord_eq_jp_iff · nnn),
    fun s => ⟨_, rfl, toNat_zext16 nnn, s.unchangedBut_setPC _⟩⟩

end Sys2Proof.Claims
end

section
/-! The words that decode to LD Vx, kk, to ADD Vx, kk and to LD Vx, Vy, and the one register the three
instructions write (R111 to R113). -/

namespace Sys2Proof

/-! ## Words packed from a register and a byte, or from two registers and a nibble (R70) -/

theorem toNat_packXKK (op : BitVec 4) (x : Reg) (kk : Byte) :
    (packXKK op x kk).toNat = op.toNat * 4096 + x.val * 256 + kk.toNat := by
  rw [packXKK, BitVec.toNat_append, ← Nat.shiftLeft_add_eq_or_of_lt kk.isLt, BitVec.toNat_append]
  simp only [BitVec.toNat_ofFin, shift4_or _ x.isLt]
  omega

theorem eq_packXKK_iff {w : Word} {op : BitVec 4} {x : Reg} {kk : Byte} :
    w = packXKK op x kk ↔ fieldOp w = op.toNat ∧ fieldX w = x ∧ fieldKK w = kk := by
  constructor
  · rintro rfl
    simp
  · rintro ⟨hop, rfl, rfl⟩
    exact (packXKK_fields hop).symm

theorem eq_packXYN_iff {w : Word} {op : BitVec 4} {x y n : Fin 16} :
    w = packXYN op x y n ↔ fieldOp w = op.toNat ∧ fieldX w = x ∧ fieldY w = y ∧ fieldN w = n := by
  constructor
  · rintro rfl
    simp
  · rintro ⟨hop, rfl, rfl, rfl⟩
    exact (packXYN_fields hop).symm

/-! ## The words of the three instructions (30_encoding.md section 4) -/

/-- Which words decode to an instruction needs asking in that instruction's own family only. -/
theorem decodeWord_eq_instr_iff (w : Word) (i : Instr) :
    decodeWord w = .instr i ↔ fieldOp w = fieldOp (encode i) ∧ decodeWord w = .instr i :=
  (and_iff_right_of_imp fieldOp_eq_of_decodeWord).symm

theorem decodeWord_eq_ldImm_iff (w : Word) (x : Reg) (kk : Byte) :
    decodeWord w = .instr (.ldImm x kk) ↔ w = packXKK 0x6 x kk := by
  rw [decodeWord_eq_instr_iff, encode, fieldOp_packXKK, eq_packXKK_iff]
  exact and_congr_right fun hop => by simp [decodeWord, hop]

theorem decodeWord_eq_addImm_iff (w : Word) (x : Reg) (kk : Byte) :
    decodeWord w = .instr (.addImm x kk) ↔ w = packXKK 0x7 x kk := by
  rw [decodeWord_eq_instr_iff, encode, fieldOp_packXKK, eq_packXKK_iff]
  exact and_congr_right fun hop => by simp [decodeWord, hop]

/-- In family 8 the nibble 0 selects the copy (R74). -/
theorem decode8_eq_ldReg_iff (w : Word) (x y : Reg) :
    decode8 w = .instr (.ldReg x y) ↔ fieldX w = x ∧ fieldY w = y ∧ fieldN w = 0 := by
  rw [decode8]
  split
  case h_10 => simp_all
  all_goals simp [← Fin.val_eq_zero_iff, *]

theorem decodeWord_eq_ldReg_iff (w : Word) (x y : Reg) :
    decodeWord w = .instr (.ldReg x y) ↔ w = packXYN 0x8 x y 0 := by
  rw [decodeWord_eq_instr_iff, encode, fieldOp_packXYN, eq_packXYN_iff]
  exact and_congr_right fun hop => by simp [decodeWord, hop, decode8_eq_ldReg_iff]

end Sys2Proof

namespace Sys2Proof.Machine

/-! ## The frame of a register write -/

theorem State.unchangedBut_setReg (s : State) (x : Reg) (v : Byte) : UnchangedBut [.V] s (s.setReg x v) := by
  intro c hc
  cases c
  case V => simp at hc
  case mem => exact fun _ => rfl
  all_goals rfl

/-- What a write of one register leaves: the value there, every other register and every other component
as they were (R10). -/
theorem State.setReg_writes_only (s : State) (x : Reg) (v : Byte) :
    (s.setReg x v).reg x = v ∧ (∀ k, k ≠ x → (s.setReg x v).reg k = s.reg k) ∧
      UnchangedBut [.V] s (s.setReg x v) :=
  ⟨s.setReg_reg_self x v, fun _ hk => s.setReg_reg_of_ne v hk, s.unchangedBut_setReg x v⟩

end Sys2Proof.Machine

namespace Sys2Proof.Claims

open Sys2Proof.Machine

theorem decodesExactly_ldImm (x : Reg) (kk : Byte) :
    DecodesExactly (0x6000 + 0x100 * x.val + kk.toNat) (.ldImm x kk) :=
  .of_iff (by rw [toNat_packXKK, Nat.mul_comm x.val]; rfl) (decodeWord_eq_ldImm_iff · x kk)

theorem decodesExactly_addImm (x : Reg) (kk : Byte) :
    DecodesExactly (0x7000 + 0x100 * x.val + kk.toNat) (.addImm x kk) :=
  .of_iff (by rw [toNat_packXKK, Nat.mul_comm x.val]; rfl) (decodeWord_eq_addImm_iff · x kk)

theorem decodesExactly_ldReg (x y : Reg) :
    DecodesExactly (0x8000 + 0x100 * x.val + 0x10 * y.val) (.ldReg x y) :=
  .of_iff (by rw [toNat_packXYN, Nat.mul_comm x.val, Nat.mul_comm y.val]; rfl) (decodeWord_eq_ldReg_iff · x y)

/-- Settles O37: each word is packed from the instruction's fields, and each execution is one register write,
of the 8-bit sum for ADD Vx, kk. -/
theorem loadAddImmediateAndCopyWriteVx : Obligations.LoadAddImmediateAndCopyWriteVx := by
  refine ⟨fun x kk => ⟨decodesExactly_ldImm x kk, decodesExactly_addImm x kk⟩, decodesExactly_ldReg,
    fun x kk s => ⟨_, rfl, s.setReg_writes_only x kk⟩, fun x kk s => ?_,
    fun x y s => ⟨_, rfl, s.setReg_writes_only x (s.reg y)⟩⟩
  obtain ⟨hx, hother⟩ := s.setReg_writes_only x (s.reg x + kk)
  exact ⟨_, rfl, (congrArg BitVec.toNat hx).trans (BitVec.toNat_add ..), hother⟩

end Sys2Proof.Claims
end

section
/-! The words that decode to the key wait and to the timer moves, what the four instructions leave, and the
end of a tick that set a timer (R144 to R147). -/

namespace Sys2Proof

/-! ## The words of family F (R75) -/

/-- In family F the bottom byte selects the instruction, and the field x is its one operand: the word is the
instruction's encoding. -/
theorem encode_of_decodeF {w : Word} {i : Instr} (hop : fieldOp w = 0xF) (h : decodeF w = .instr i) :
    encode i = w := by
  have hw : packXKK 0xF (fieldX w) (fieldKK w) = w := packXKK_fields hop
  unfold decodeF at h
  split at h
  case h_10 => cases h
  all_goals
    cases h
    rw [← hw, encode, fieldX_packXKK]
    exact congrArg _ (BitVec.eq_of_toNat_eq (Eq.symm ‹_›))

theorem decodeWord_eq_iff_of_familyF {i : Instr} {x : Reg} {kk : Byte} (he : encode i = packXKK 0xF x kk)
    (hd : decodeF (packXKK 0xF x kk) = .instr i) (w : Word) :
    decodeWord w = .instr i ↔ w = packXKK 0xF x kk := by
  constructor
  · intro h
    have hop : fieldOp w = 0xF := (fieldOp_eq_of_decodeWord h).trans (by rw [he, fieldOp_packXKK]; rfl)
    have hF : decodeF w = .instr i := by rwa [decodeWord, hop] at h
    rw [← he, encode_of_decodeF hop hF]
  · rintro rfl
    rw [decodeWord, fieldOp_packXKK]
    exact hd

end Sys2Proof

namespace Sys2Proof.Machine

/-! ## The key wait (R145) -/

theorem exec_ldVxK_of_key {s : State} {k : Reg} (x : Reg) (h : s.leastKey = some k) :
    exec (.ldVxK x) s = .next (s.setReg x (BitVec.ofNat 8 k.val)) := by
  simp only [exec, execLdVxK, h]

theorem exec_ldVxK_of_noKey {s : State} (x : Reg) (h : s.leastKey = none) :
    exec (.ldVxK x) s = .next (s.setPC (s.PC - 2)) := by
  simp only [exec, execLdVxK, h]

theorem toNat_ofNat_reg (k : Reg) : (BitVec.ofNat 8 k.val).toNat = k.val := by
  rw [BitVec.toNat_ofNat]
  omega

/-- Rewinding the advanced PC by one instruction gives the state before the advance. -/
theorem State.advance_setPC_rewind (s : State) : s.advance.setPC (s.advance.PC - 2) = s := by
  rw [advance_PC, BitVec.add_sub_cancel]
  rfl

/-! ## The timers (R146, R147, R173) -/

theorem unchangedBut_DT (s : State) (v : Byte) : UnchangedBut [.DT] s { s with DT := v } := by
  intro c hc
  cases c
  case DT => simp at hc
  case mem | V => exact fun _ => rfl
  all_goals rfl

theorem unchangedBut_ST (s : State) (v : Byte) : UnchangedBut [.ST] s { s with ST := v } := by
  intro c hc
  cases c
  case ST => simp at hc
  case mem | V => exact fun _ => rfl
  all_goals rfl

section
variable {s : State} (hr : s.run = .running) (ht : s.cfg.cyclesPerTick ≤ s.tickStep + 1)
include hr ht

/-- The last Step of a tick is followed by one decrement of each timer that is not 0. -/
theorem toNat_endStep_DT : (endStep s).DT.toNat = s.DT.toNat - 1 := by
  rw [endStep_of_last hr ht]
  exact State.toNat_countDown s.DT

theorem toNat_endStep_ST : (endStep s).ST.toNat = s.ST.toNat - 1 := by
  rw [endStep_of_last hr ht]
  exact State.toNat_countDown s.ST

/-- The beep after a completed tick tells that ST was above 1 before the decrement. -/
theorem endStep_beep_iff : (endStep s).beep = true ↔ 1 < s.ST.toNat := by
  have hrun : (endStep s).run = .running := by rw [endStep_frame]; exact hr
  have hST := toNat_endStep_ST hr ht
  rw [State.beep_iff, and_iff_right hrun, Ne, ← BitVec.toNat_inj, hST]
  change ¬ s.ST.toNat - 1 = 0 ↔ 1 < s.ST.toNat
  omega

end

end Sys2Proof.Machine

namespace Sys2Proof.Claims

open Sys2Proof.Machine

theorem DecodesExactly.of_familyF {i : Instr} {x : Reg} {kk : Byte} (he : encode i = packXKK 0xF x kk)
    (hd : decodeF (packXKK 0xF x kk) = .instr i) : DecodesExactly (0xF000 + kk.toNat + 0x100 * x.val) i :=
  .of_iff (by rw [toNat_packXKK, Nat.mul_comm x.val, Nat.add_right_comm]; rfl)
    (decodeWord_eq_iff_of_familyF he hd)

theorem decodesExactly_ldVxK (x : Reg) : DecodesExactly (0xF00A + 0x100 * x.val) (.ldVxK x) :=
  .of_familyF (kk := 0x0A) rfl (by simp [decodeF])

theorem decodesExactly_ldVxDT (x : Reg) : DecodesExactly (0xF007 + 0x100 * x.val) (.ldVxDT x) :=
  .of_familyF (kk := 0x07) rfl (by simp [decodeF])

theorem decodesExactly_ldDTVx (x : Reg) : DecodesExactly (0xF015 + 0x100 * x.val) (.ldDTVx x) :=
  .of_familyF (kk := 0x15) rfl (by simp [decodeF])

theorem decodesExactly_ldSTVx (x : Reg) : DecodesExactly (0xF018 + 0x100 * x.val) (.ldSTVx x) :=
  .of_familyF (kk := 0x18) rfl (by simp [decodeF])

/-- Settles O48: the key wait is one register write or one rewind of PC as `leastKey` finds a key or none, and
in a Step the rewind undoes the advance. -/
theorem keyWaitStoresLeastKeyOrRewinds : Obligations.KeyWaitStoresLeastKeyOrRewinds := by
  refine fun x => ⟨decodesExactly_ldVxK x, fun s =>
    ⟨fun hr hpc hd hnone => ?_, fun k hk hlt => ?_, fun hnone => ?_⟩⟩
  · have hkey : s.advance.leastKey = none := State.leastKey_eq_none.mpr hnone
    rw [engineStep_of_instr hr (fetch_of_le hpc) hd, exec_ldVxK_of_noKey x hkey, s.advance_setPC_rewind]
  · obtain ⟨hx, hother⟩ := s.setReg_writes_only x (BitVec.ofNat 8 k.val)
    exact ⟨_, exec_ldVxK_of_key x (State.leastKey_eq_some.mpr ⟨hk, hlt⟩),
      (congrArg BitVec.toNat hx).trans (toNat_ofNat_reg k), hother⟩
  · exact ⟨_, exec_ldVxK_of_noKey x (State.leastKey_eq_none.mpr hnone), rfl, s.unchangedBut_setPC _⟩

/-- Settles O49: each execution writes one byte, and the end of the tick counts the timer just set down once,
so that ST = 1 is 0 at the boundary where beep is read. -/
theorem timerMovesCopyOneByte : Obligations.TimerMovesCopyOneByte :=
  ⟨fun x => ⟨decodesExactly_ldVxDT x, decodesExactly_ldDTVx x, decodesExactly_ldSTVx x⟩,
    fun x s => ⟨_, rfl, s.setReg_writes_only x s.DT⟩,
    fun x s => ⟨_, rfl, rfl, unchangedBut_DT s (s.reg x), toNat_endStep_DT (s := { s with DT := s.reg x })⟩,
    fun x s => ⟨_, rfl, rfl, unchangedBut_ST s (s.reg x), State.soundActive_iff _,
      fun hr ht => ⟨toNat_endStep_ST (s := { s with ST := s.reg x }) hr ht,
        endStep_beep_iff (s := { s with ST := s.reg x }) hr ht⟩⟩⟩

end Sys2Proof.Claims
end

section
/-! Dropped writes, timers and the keypad over a Step and over a tick (R163, R173, R176): what an execution
leaves of the diagnostic log and of the timers, what a Step can be, and what the end of a tick leaves. -/

namespace Sys2Proof.Machine

variable {i : Instr} {s t : State}

/-! ## One instruction -/

/-- `exec_effect`, for the state an execution is known to answer. -/
theorem Effect.of_exec (h : exec i s = .next t) : Effect i s t := by
  obtain ⟨t', e, heff⟩ := exec_effect i s
  obtain rfl : t' = t := Host.Outcome.next.inj (e.symm.trans h)
  exact heff

/-- RET's pop writes SP only (R92). -/
theorem State.pop_frame {v : Word} (h : s.pop = some (v, t)) : t = { s with SP := t.SP } := by
  unfold State.pop at h
  split at h <;> cases h
  rfl

/-- CALL's push writes the stack and SP only (R94). -/
theorem State.push_frame {v : Word} (h : s.push v = some t) : t = { s with stack := t.stack, SP := t.SP } := by
  unfold State.push at h
  split at h <;> cases h
  rfl

/-- Which instructions may append to the diagnostic log and which may write each timer (R28, R29, R35). -/
structure LogTimerEffect (i : Instr) (s t : State) : Prop where
  log : t.diaglog = s.diaglog ∨ ∃ x, i = .ldB x ∨ i = .ldMemVx x
  delayTimer : t.DT = s.DT ∨ ∃ x, i = .ldDTVx x
  soundTimer : t.ST = s.ST ∨ ∃ x, i = .ldSTVx x

/-- An execution that leaves the log and both timers alone. -/
theorem LogTimerEffect.of_frame (hl : t.diaglog = s.diaglog) (hd : t.DT = s.DT) (hs : t.ST = s.ST) :
    LogTimerEffect i s t := ⟨.inl hl, .inl hd, .inl hs⟩

/-- The execution of every instruction has its `LogTimerEffect`. -/
theorem LogTimerEffect.of_exec (h : exec i s = .next t) : LogTimerEffect i s t := by
  cases i
  case ret =>
    rw [exec, execRet] at h
    split at h <;> cases h
    case h_1 hpop =>
      rw [State.pop_frame hpop]
      exact .of_frame rfl rfl rfl
    case h_2 => exact .of_frame rfl rfl rfl
  case call nnn =>
    rw [exec, execCall] at h
    split at h <;> cases h
    case h_1 hpush =>
      rw [State.push_frame hpush]
      exact .of_frame rfl rfl rfl
    case h_2 => exact .of_frame rfl rfl rfl
  case skp x | sknp x | drw x y n =>
    simp only [exec, execSkp, execSknp, execDrw] at h
    split at h <;> cases h <;> exact .of_frame rfl rfl rfl
  case ldVxK x =>
    cases h
    split <;> exact .of_frame rfl rfl rfl
  case rnd x kk =>
    cases h
    exact .of_frame (by simp) (by simp) (by simp)
  case ldVxMem x =>
    rw [exec, execLdVxMem] at h
    split at h <;> cases h
    · exact .of_frame rfl rfl rfl
    · exact .of_frame (by simp) (by simp) (by simp)
  case ldB x =>
    rw [exec, execLdB] at h
    split at h <;> cases h
    · exact .of_frame rfl rfl rfl
    · exact ⟨.inr ⟨x, .inl rfl⟩, .inl (by simp), .inl (by simp)⟩
  case ldMemVx x =>
    rw [exec, execLdMemVx] at h
    split at h <;> cases h
    · exact .of_frame rfl rfl rfl
    · exact ⟨.inr ⟨x, .inr rfl⟩, .inl (by simp), .inl (by simp)⟩
  case ldDTVx x =>
    cases h
    exact ⟨.inl rfl, .inr ⟨x, rfl⟩, .inl rfl⟩
  case ldSTVx x =>
    cases h
    exact ⟨.inl rfl, .inl rfl, .inr ⟨x, rfl⟩⟩
  all_goals
    cases h
    exact .of_frame rfl rfl rfl

/-! ## The Step and the tick -/

/-- `engineStep_effect`, for the state a Step is known to answer. -/
theorem StepEffect.of_engineStep (h : engineStep s = .next t) : StepEffect s t := by
  obtain ⟨t', e, heff⟩ := engineStep_effect s
  obtain rfl : t' = t := Host.Outcome.next.inj (e.symm.trans h)
  exact heff

theorem onNext_eq_next {f : State → State} {o : Host.Outcome State Fault Refusal} :
    onNext f o = .next t ↔ ∃ u, o = .next u ∧ f u = t := by
  cases o <;> simp [onNext]

@[simp] theorem endStep_key (s : State) : (endStep s).key = s.key := by rw [endStep_frame]

/-- A Step and what follows it in its tick keep the keypad (R176). -/
theorem key_of_engineStep_endStep (h : onNext endStep (engineStep s) = .next t) : t.key = s.key := by
  obtain ⟨u, hu, rfl⟩ := onNext_eq_next.mp h
  rw [endStep_key, (StepEffect.of_engineStep hu).key]

/-- The Steps left of a TICK and its decrement keep the keypad (R172, R176). -/
theorem tickLoop_key {n : Nat} (h : tickLoop n s = .next t) : t.key = s.key := by
  induction n generalizing s with
  | zero =>
    cases h
    rfl
  | succ n ih =>
    obtain ⟨u, hu, heff⟩ := engineStep_effect s
    simp only [tickLoop, hu] at h
    split at h
    · cases h
      exact heff.key
    · exact (ih h).trans heff.key

/-- The key vector of a whole TICK of a running core (R172, R176). -/
theorem tick_key {keys : Keypad} (hr : s.run = .running) (h : tick keys s = .next t) : t.key = keys := by
  simp only [tick, hr] at h
  exact tickLoop_key h

/-- Where no tick ends, nothing counts down (R173). -/
theorem endStep_timers_of_notLast (h : s.run ≠ .running ∨ s.tickStep + 1 < s.cfg.cyclesPerTick) :
    (endStep s).DT = s.DT ∧ (endStep s).ST = s.ST := by
  by_cases hr : s.run = .running
  · rw [endStep_of_midTick hr (h.resolve_left (not_not_intro hr))]
    exact ⟨rfl, rfl⟩
  · rw [endStep_of_faulted hr]
    exact ⟨rfl, rfl⟩

/-- ACK_REDRAW at a tick boundary (R43). -/
theorem step_of_ackRedraw {rest : List HostCmd} (hb : s.atBoundary = true) (hh : s.host = .ackRedraw :: rest) :
    step s = .next { s with redraw := false, host := rest } := by
  rw [step_of_boundary hb, hostStep, hh]

end Sys2Proof.Machine

namespace Sys2Proof.Claims

open Sys2Proof.Machine

/-- What a Step can be: nothing, on a halted core; the fault of a fetch outside the memory; the diagnosed
no-op of an UNIMPL word; or the execution of the instruction whose word stands at PC (R71). -/
theorem engineStep_cases {s t : State} (h : engineStep s = .next t) :
    t = s ∨
    (∃ r, t = s.takeFault r) ∨
    (∃ f, decodeWord (wordAtPC s) = .unimpl f ∧ t = s.advance.diag .unimpl (wordAtPC s) none) ∨
    ∃ i, decodeWord (wordAtPC s) = .instr i ∧ exec i s.advance = .next t := by
  by_cases hr : s.run = .running
  · by_cases hpc : s.PC.toNat ≤ 0xFFE
    · have hf : fetch s = .word (wordAtPC s) := fetch_of_le hpc
      cases hd : decodeWord (wordAtPC s) with
      | unimpl f =>
        rw [engineStep_of_unimpl hr hf hd] at h
        exact .inr (.inr (.inl ⟨f, rfl, (Host.Outcome.next.inj h).symm⟩))
      | instr i =>
        rw [engineStep_of_instr hr hf hd] at h
        exact .inr (.inr (.inr ⟨i, rfl, h⟩))
    · simp only [engineStep, hr, fetch_of_gt (not_le.mp hpc)] at h
      exact .inr (.inl ⟨_, (Host.Outcome.next.inj h).symm⟩)
  · obtain ⟨r, hf⟩ := State.faulted_of_ne hr
    simp only [engineStep, hf] at h
    exact .inl (Host.Outcome.next.inj h).symm

/-- A Step that appends a WPROT record runs Fx33 or Fx55 (R163). -/
theorem decodeWord_of_wprot_appended {s t : State} {ds : List DiagRecord} (h : engineStep s = .next t)
    (hds : t.diaglog = s.diaglog ++ ds) (hw : ∃ d ∈ ds, d.cause = .wprot) :
    ∃ x, decodeWord (wordAtPC s) = .instr (.ldB x) ∨ decodeWord (wordAtPC s) = .instr (.ldMemVx x) := by
  obtain ⟨d, hd, hcause⟩ := hw
  have hgrew : t.diaglog ≠ s.diaglog := by
    rw [hds, Ne, List.append_right_eq_self]
    exact List.ne_nil_of_mem hd
  rcases engineStep_cases h with rfl | ⟨r, rfl⟩ | ⟨f, -, rfl⟩ | ⟨i, hi, he⟩
  · exact absurd rfl hgrew
  · exact absurd rfl hgrew
  · have hone : ds = [⟨.unimpl, s.advance.PC - 2, wordAtPC s, none⟩] := (List.append_cancel_left hds).symm
    rw [hone, List.mem_singleton] at hd
    rw [hd] at hcause
    cases hcause
  · obtain ⟨x, rfl | rfl⟩ := (LogTimerEffect.of_exec he).log.resolve_left hgrew
    · exact ⟨x, .inl hi⟩
    · exact ⟨x, .inr hi⟩

/-- A Step writes a timer only by the instruction that loads it (R173). -/
theorem decodeWord_of_timer_changed {s t : State} (h : engineStep s = .next t) :
    (t.DT ≠ s.DT → ∃ x, decodeWord (wordAtPC s) = .instr (.ldDTVx x)) ∧
    (t.ST ≠ s.ST → ∃ x, decodeWord (wordAtPC s) = .instr (.ldSTVx x)) := by
  rcases engineStep_cases h with rfl | ⟨r, rfl⟩ | ⟨f, -, rfl⟩ | ⟨i, hi, he⟩
  · exact ⟨absurd rfl, absurd rfl⟩
  · exact ⟨absurd rfl, absurd rfl⟩
  · exact ⟨absurd rfl, absurd rfl⟩
  · have heff := LogTimerEffect.of_exec he
    constructor
    · intro hne
      obtain ⟨x, rfl⟩ := heff.delayTimer.resolve_left hne
      exact ⟨x, hi⟩
    · intro hne
      obtain ⟨x, rfl⟩ := heff.soundTimer.resolve_left hne
      exact ⟨x, hi⟩

/-- Settles O17: the checked store drops the byte, `exec_effect` keeps the protected bytes, and the log tells
Fx33 and Fx55 from every other instruction and from an UNIMPL word. -/
theorem protectedWriteIsDroppedWithDiagnostic : Obligations.ProtectedWriteIsDroppedWithDiagnostic := by
  refine ⟨fun s i a v ha => if_pos ha, fun i s t a h ha => (Effect.of_exec h).protectedBytes a ha,
    fun i s t h hi => (LogTimerEffect.of_exec h).log.resolve_right ?_,
    fun s t ds => decodeWord_of_wprot_appended⟩
  rintro ⟨x, hx⟩
  exact hx.elim (hi x).1 (hi x).2

/-- Settles O26: `endStep` decrements in a completed tick alone, and a Step writes a timer only by the
instruction that loads it. -/
theorem timersCountDownOncePerTick : Obligations.TimersCountDownOncePerTick := by
  refine ⟨fun u hr ht => ⟨toNat_endStep_DT hr ht, toNat_endStep_ST hr ht⟩,
    fun u => endStep_timers_of_notLast,
    fun s t => decodeWord_of_timer_changed, fun s t rest hb hh h => ?_⟩
  rw [step_of_ackRedraw hb hh] at h
  cases h
  exact ⟨rfl, rfl⟩

/-- Settles O28: TICK latches the host's vector before its first Step, and no Step, no end of a Step and no
ACK_REDRAW writes the keypad. -/
theorem keypadIsLatchedPerTick : Obligations.KeypadIsLatchedPerTick := by
  refine ⟨fun s t keys rest hr ht hh h => ?_, fun s t i h => (Effect.of_exec h).key, fun s t hr ht h => ?_,
    fun s t rest hb hh h => ?_, fun s t keys => tick_key⟩
  · have hb : s.atBoundary = true := s.atBoundary_iff.mpr (.inl ht)
    rw [step_of_boundary hb, hostStep_of_tick hr hh] at h
    exact ⟨key_of_engineStep_endStep h, h⟩
  · rw [step_of_midTick ht hr] at h
    exact key_of_engineStep_endStep h
  · rw [step_of_ackRedraw hb hh] at h
    cases h
    rfl

end Sys2Proof.Claims
end

section
/-! The memory a RESET leaves below the program start (R50, R52, R181). -/

namespace Sys2Proof.Machine

/-- Within the font an unlisted address reads as that byte of the font (R52). -/
theorem Memory.unlisted_of_lt {font : Font} {a : Nat} (h : a < 80) : unlisted font a = font[a] := dif_pos h

/-- Below the program start a successful RESET leaves the reset contents, the ROM being copied above. -/
theorem byteAt_of_construct {cfg : Cfg} {rom : List Byte} {t : State} (h : construct cfg rom = .next t)
    {a : Nat} (ha : a < Config.programStart) : t.byteAt a = Memory.unlisted cfg.font a := by
  obtain ⟨-, -, rfl⟩ := construct_eq_next h
  exact Memory.read_image_of_outside (.inl ha)

end Sys2Proof.Machine

namespace Sys2Proof.Claims

open Sys2Proof.Machine

/-- Settles O23: glyph d's row j lies within the 80 bytes of the font, hence below the program start. -/
theorem resetPreloadsTheFont : Obligations.ResetPreloadsTheFont := fun cfg rom t h d hd j hj => by
  have hfont : 5 * d + j < 80 := by omega
  have hrom : 5 * d + j < Config.programStart := hfont.trans (by decide)
  rw [byteAt_of_construct h hrom, Memory.unlisted_of_lt hfont]

end Sys2Proof.Claims
end

section
/-! The decoder against the encoder, the opcode map and the decode tree (30_encoding.md). -/

namespace Sys2Proof

/-! ## Decode after encode -/

/-- Decoding an encoded instruction gives it back: the fields of a packed word are what was packed. -/
theorem decodeWord_encode (i : Instr) : decodeWord (encode i) = .instr i := by
  cases i
  case cls | ret => decide
  case ldReg | orReg | andReg | xorReg | addReg | sub | shr | subn | shl =>
    simp [encode, decodeWord, decode8]
  case skp | sknp => simp [encode, decodeWord, decodeE]
  case ldVxDT | ldVxK | ldDTVx | ldSTVx | addI | ldF | ldB | ldMemVx | ldVxMem =>
    simp [encode, decodeWord, decodeF]
  all_goals simp [encode, decodeWord]

theorem decodeBytes_encodeBytes (i : Instr) (rest : List Byte) :
    decodeBytes (encodeBytes i ++ rest) = .instr i rest := by
  simp only [encodeBytes, List.cons_append, List.nil_append, decodeBytes, wordOfBytes_hi_lo, decodeWord_encode]

/-! ## Encode after decode -/

theorem encode_of_decode0 {w : Word} {i : Instr} (h : decode0 w = .instr i) : encode i = w := by
  unfold decode0 at h
  split_ifs at h with hcls hret
  · cases h
    exact hcls.symm
  · cases h
    exact hret.symm

/-- In family 8 the bottom nibble selects the instruction (R74), and x and y are its operands. -/
theorem encode_of_decode8 {w : Word} {i : Instr} (hop : fieldOp w = 0x8) (h : decode8 w = .instr i) :
    encode i = w := by
  have hw : packXYN 0x8 (fieldX w) (fieldY w) (fieldN w) = w := packXYN_fields hop
  unfold decode8 at h
  split at h
  case h_10 => cases h
  all_goals
    cases h
    rw [← hw, encode, fieldX_packXYN, fieldY_packXYN]
    exact congrArg _ (Fin.ext (Eq.symm ‹_›))

/-- In family E the bottom byte selects the instruction (R75), and x is its operand. -/
theorem encode_of_decodeE {w : Word} {i : Instr} (hop : fieldOp w = 0xE) (h : decodeE w = .instr i) :
    encode i = w := by
  have hw : packXKK 0xE (fieldX w) (fieldKK w) = w := packXKK_fields hop
  unfold decodeE at h
  split at h
  case h_3 => cases h
  all_goals
    cases h
    rw [← hw, encode, fieldX_packXKK]
    exact congrArg _ (BitVec.eq_of_toNat_eq (Eq.symm ‹_›))

/-- The word under the mask that clears the nibble 5xyN and 9xyN ignore (R76). -/
theorem and_FFF0_of_fieldOp {w : Word} {op : BitVec 4} (hop : fieldOp w = op.toNat) :
    w &&& 0xFFF0#16 = packXYN op (fieldX w) (fieldY w) 0 := by
  conv_lhs => rw [← packXYN_fields hop]
  exact packXYN_and_FFF0 ..

/-! ## A word under the masks of the opcode map -/

section
variable {w v : Word}

theorem fieldOp_of_and_F000 (h : w &&& 0xF000#16 = v) : fieldOp w = fieldOp v := by
  rw [← h, eq_packXYN w, packXYN_and_F000]
  simp

theorem fields_of_and_F00F (h : w &&& 0xF00F#16 = v) : fieldOp w = fieldOp v ∧ fieldN w = fieldN v := by
  rw [← h, eq_packXYN w, packXYN_and_F00F]
  simp

theorem fields_of_and_F0FF (h : w &&& 0xF0FF#16 = v) : fieldOp w = fieldOp v ∧ fieldKK w = fieldKK v := by
  rw [← h, eq_packXYN w, packXYN_and_F0FF]
  refine ⟨by simp, BitVec.eq_of_toNat_eq ?_⟩
  rw [toNat_fieldKK_packXYN, toNat_fieldKK_packXYN]

end

/-! ## The fields of a word as digits of its value (R70) -/

theorem val_fieldX_eq_mod (w : Word) : (fieldX w).val = w.toNat / 256 % 16 := by
  simp only [fieldX, BitVec.val_toFin, BitVec.extractLsb'_toNat, Nat.shiftRight_eq_div_pow, Nat.reducePow]

theorem val_fieldY_eq_mod (w : Word) : (fieldY w).val = w.toNat / 16 % 16 := by
  simp only [fieldY, BitVec.val_toFin, BitVec.extractLsb'_toNat, Nat.shiftRight_eq_div_pow, Nat.reducePow]

theorem toNat_fieldNNN_eq_mod (w : Word) : (fieldNNN w).toNat = w.toNat % 4096 := by
  simp only [fieldNNN, BitVec.extractLsb'_toNat, Nat.shiftRight_zero, Nat.reducePow]

end Sys2Proof

namespace Sys2Proof.Claims

open Sys2Proof.Machine

/-- A word whose bits its decoding keeps is the instruction's encoding. -/
theorem encode_of_decodeWord {w : Word} {i : Instr} (h : decodeWord w = .instr i)
    (hk : keptBits i = 0xFFFF) : encode i = w := by
  have hlt := fieldOp_lt w
  unfold decodeWord at h
  split at h
  case h_1 => exact encode_of_decode0 h
  case h_9 hop => exact encode_of_decode8 hop h
  case h_15 hop => exact encode_of_decodeE hop h
  case h_16 =>
    have hop : fieldOp w = 0xF := by
      simp only [imp_false] at *
      omega
    exact encode_of_decodeF hop h
  case h_6 | h_10 =>
    cases h
    exact absurd hk (by simp [keptBits])
  case h_2 hop | h_3 hop | h_11 hop | h_12 hop =>
    cases h
    exact packNNN_fields hop
  case h_14 hop =>
    cases h
    exact packXYN_fields hop
  all_goals
    cases h
    exact packXKK_fields ‹_›

/-- `5xyN` and `9xyN` alone lose their bottom nibble; every other word is its instruction's encoding. -/
theorem and_keptBits_of_decodeWord {w : Word} {i : Instr} (h : decodeWord w = .instr i) :
    w &&& keptBits i = encode i := by
  by_cases hk : keptBits i = 0xFFFF
  · rw [hk, encode_of_decodeWord h hk]
    exact and_FFFF w
  · cases i
    case seReg x y =>
      have hop : fieldOp w = (0x5 : BitVec 4).toNat := (fieldOp_eq_of_decodeWord h).trans (fieldOp_packXYN ..)
      obtain ⟨rfl, rfl⟩ : fieldX w = x ∧ fieldY w = y := by simpa [decodeWord, hop] using h
      exact and_FFF0_of_fieldOp hop
    case sneReg x y =>
      have hop : fieldOp w = (0x9 : BitVec 4).toNat := (fieldOp_eq_of_decodeWord h).trans (fieldOp_packXYN ..)
      obtain ⟨rfl, rfl⟩ : fieldX w = x ∧ fieldY w = y := by simpa [decodeWord, hop] using h
      exact and_FFF0_of_fieldOp hop
    all_goals exact absurd rfl hk

/-! ## The opcode map -/

/-- The name of the instruction a word decodes to, or none for an UNIMPL word. -/
def decodedName (w : Word) : Option String :=
  match decodeWord w with
  | .instr i => some i.mnemonic
  | .unimpl _ => none

theorem decodedName_eq_some_iff {w : Word} {name : String} :
    decodedName w = some name ↔ ∃ i, decodeWord w = .instr i ∧ i.mnemonic = name := by
  unfold decodedName
  split <;> simp [*]

section
variable {w : Word}

/-! A word that matches a row of the opcode map decodes to that row's instruction: the row's mask fixes the
fields the decode tree reads. One lemma for each part of the table. -/

theorem decodedName_of_rowsLow :
    ∀ r ∈ opcodeRowsLow, r.matchesWord w = true → decodedName w = some r.mnemonic := by
  simp only [opcodeRowsLow, List.forall_mem_cons, OpcodeRow.matchesWord, decide_eq_true_eq, List.not_mem_nil,
    false_imp_iff, implies_true, and_true]
  refine ⟨fun h => ?cls, fun h => ?ret, ?_, ?_, ?_, ?_, ?_, ?_, ?_⟩
  case cls =>
    obtain rfl : w = 0x00E0 := (and_FFFF w).symm.trans h
    decide
  case ret =>
    obtain rfl : w = 0x00EE := (and_FFFF w).symm.trans h
    decide
  all_goals
    intro h
    unfold decodedName decodeWord
    rw [fieldOp_of_and_F000 h]
    rfl

theorem decodedName_of_rows8 :
    ∀ r ∈ opcodeRows8, r.matchesWord w = true → decodedName w = some r.mnemonic := by
  simp only [opcodeRows8, List.forall_mem_cons, OpcodeRow.matchesWord, decide_eq_true_eq, List.not_mem_nil,
    false_imp_iff, implies_true, and_true]
  refine ⟨?_, ?_, ?_, ?_, ?_, ?_, ?_, ?_, ?_⟩
  all_goals
    intro h
    obtain ⟨hop, hn⟩ := fields_of_and_F00F h
    unfold decodedName decodeWord decode8
    rw [hop, hn]
    rfl

theorem decodedName_of_rowsMid :
    ∀ r ∈ opcodeRowsMid, r.matchesWord w = true → decodedName w = some r.mnemonic := by
  simp only [opcodeRowsMid, List.forall_mem_cons, OpcodeRow.matchesWord, decide_eq_true_eq, List.not_mem_nil,
    false_imp_iff, implies_true, and_true]
  refine ⟨?_, ?_, ?_, ?_, ?_, ?skp, ?sknp⟩
  case skp | sknp =>
    intro h
    obtain ⟨hop, hkk⟩ := fields_of_and_F0FF h
    unfold decodedName decodeWord decodeE
    rw [hop, hkk]
    rfl
  all_goals
    intro h
    unfold decodedName decodeWord
    rw [fieldOp_of_and_F000 h]
    rfl

theorem decodedName_of_rowsF :
    ∀ r ∈ opcodeRowsF, r.matchesWord w = true → decodedName w = some r.mnemonic := by
  simp only [opcodeRowsF, List.forall_mem_cons, OpcodeRow.matchesWord, decide_eq_true_eq, List.not_mem_nil,
    false_imp_iff, implies_true, and_true]
  refine ⟨?_, ?_, ?_, ?_, ?_, ?_, ?_, ?_, ?_⟩
  all_goals
    intro h
    obtain ⟨hop, hkk⟩ := fields_of_and_F0FF h
    unfold decodedName decodeWord decodeF
    rw [hop, hkk]
    rfl

theorem decodedName_of_matchesWord :
    ∀ r ∈ opcodeTable, r.matchesWord w = true → decodedName w = some r.mnemonic := by
  simp only [opcodeTable, List.forall_mem_append]
  exact ⟨⟨⟨decodedName_of_rowsLow, decodedName_of_rows8⟩, decodedName_of_rowsMid⟩, decodedName_of_rowsF⟩

end

/-- The map's row for each instruction (`Laws.Encoding`). -/
theorem encoding_statement : ∀ i, Laws.Encoding.Statement i
  | .cls => Laws.Encoding.cls
  | .ret => Laws.Encoding.ret
  | .jp nnn => Laws.Encoding.jp nnn
  | .call nnn => Laws.Encoding.call nnn
  | .seImm x kk => Laws.Encoding.seImm x kk
  | .sneImm x kk => Laws.Encoding.sneImm x kk
  | .seReg x y => Laws.Encoding.seReg x y
  | .ldImm x kk => Laws.Encoding.ldImm x kk
  | .addImm x kk => Laws.Encoding.addImm x kk
  | .ldReg x y => Laws.Encoding.ldReg x y
  | .orReg x y => Laws.Encoding.orReg x y
  | .andReg x y => Laws.Encoding.andReg x y
  | .xorReg x y => Laws.Encoding.xorReg x y
  | .addReg x y => Laws.Encoding.addReg x y
  | .sub x y => Laws.Encoding.sub x y
  | .shr x y => Laws.Encoding.shr x y
  | .subn x y => Laws.Encoding.subn x y
  | .shl x y => Laws.Encoding.shl x y
  | .sneReg x y => Laws.Encoding.sneReg x y
  | .ldI nnn => Laws.Encoding.ldI nnn
  | .jpV0 nnn => Laws.Encoding.jpV0 nnn
  | .rnd x kk => Laws.Encoding.rnd x kk
  | .drw x y n => Laws.Encoding.drw x y n
  | .skp x => Laws.Encoding.skp x
  | .sknp x => Laws.Encoding.sknp x
  | .ldVxDT x => Laws.Encoding.ldVxDT x
  | .ldVxK x => Laws.Encoding.ldVxK x
  | .ldDTVx x => Laws.Encoding.ldDTVx x
  | .ldSTVx x => Laws.Encoding.ldSTVx x
  | .addI x => Laws.Encoding.addI x
  | .ldF x => Laws.Encoding.ldF x
  | .ldB x => Laws.Encoding.ldB x
  | .ldMemVx x => Laws.Encoding.ldMemVx x
  | .ldVxMem x => Laws.Encoding.ldVxMem x

/-- The mask of an instruction's row lies within the bits its decoding keeps. -/
theorem keptBits_and_mask {i : Instr} {r : OpcodeRow} (hr : r ∈ opcodeTable) (hn : r.mnemonic = i.mnemonic) :
    keptBits i &&& r.mask = r.mask := by
  cases i
  case seReg =>
    have h : ∀ r ∈ opcodeTable, r.mnemonic = "SE_Vx__Vy" → 0xFFF0 &&& r.mask = r.mask := by decide
    exact h r hr hn
  case sneReg =>
    have h : ∀ r ∈ opcodeTable, r.mnemonic = "SNE_Vx__Vy" → 0xFFF0 &&& r.mask = r.mask := by decide
    exact h r hr hn
  all_goals exact (BitVec.and_comm ..).trans (and_FFFF r.mask)

/-- A word that decodes to an instruction matches that instruction's row. -/
theorem exists_matchesWord_of_decodeWord {w : Word} {i : Instr} (h : decodeWord w = .instr i) :
    ∃ r ∈ opcodeTable, r.mnemonic = i.mnemonic ∧ r.matchesWord w = true := by
  obtain ⟨r, hr, hn, hm⟩ := encoding_statement i
  refine ⟨r, hr, hn, decide_eq_true ?_⟩
  calc w &&& r.mask = w &&& keptBits i &&& r.mask := by rw [BitVec.and_assoc, keptBits_and_mask hr hn]
    _ = encode i &&& r.mask := by rw [and_keptBits_of_decodeWord h]
    _ = r.value := of_decide_eq_true hm

/-- No two rows of the opcode map bear the same name. -/
theorem opcodeRow_eq_of_mnemonic {r r' : OpcodeRow} (hr : r ∈ opcodeTable) (hr' : r' ∈ opcodeTable)
    (h : r.mnemonic = r'.mnemonic) : r = r' :=
  List.inj_on_of_nodup_map (f := OpcodeRow.mnemonic) (by decide) hr hr' h

/-- A row of the opcode map matches exactly the words that decode to its instruction. -/
theorem matchesWord_iff_decodedName {w : Word} {r : OpcodeRow} (hr : r ∈ opcodeTable) :
    r.matchesWord w = true ↔ decodedName w = some r.mnemonic := by
  refine ⟨decodedName_of_matchesWord r hr, fun h => ?_⟩
  obtain ⟨i, hd, hi⟩ := decodedName_eq_some_iff.mp h
  obtain ⟨r', hr', hn, hm⟩ := exists_matchesWord_of_decodeWord hd
  obtain rfl : r' = r := opcodeRow_eq_of_mnemonic hr' hr (hn.trans hi)
  exact hm

/-- One row of the opcode map bears an instruction's name. -/
theorem map_filter_mnemonic (i : Instr) :
    (opcodeTable.filter fun r => some i.mnemonic = some r.mnemonic).map (·.mnemonic) = [i.mnemonic] := by
  cases i <;> rfl

/-! ## The obligations -/

/-- Settles O1: the fields of a packed word are what was packed, and a word is its two bytes. -/
theorem decodeOfEncodeIsTheInstr : Obligations.DecodeOfEncodeIsTheInstr :=
  fun i _ => ⟨decodeWord_encode i, decodeBytes_encodeBytes i⟩

/-- Settles O2: family by family the word is packed from the fields that decoding reads. -/
theorem encodeOfDecodeIsTheWord : Obligations.EncodeOfDecodeIsTheWord :=
  fun _ _ => and_keptBits_of_decodeWord

/-- Settles O3: a row matches exactly the words that decode to its instruction, and no two rows share a name. -/
theorem decodeAgreesWithOpcodeMap : Obligations.DecodeAgreesWithOpcodeMap := by
  intro w
  have hrows : opcodeTable.filter (·.matchesWord w) = opcodeTable.filter (decodedName w = some ·.mnemonic) :=
    List.filter_congr fun r hr => by rw [Bool.eq_iff_iff, matchesWord_iff_decodedName hr, decide_eq_true_eq]
  rw [hrows, decodedName]
  cases decodeWord w with
  | instr i => exact map_filter_mnemonic i
  | unimpl f => simp

/-- Settles O4: each family reads the fields of the word, which are digits of its value. -/
theorem decodeTreeByFamily : Obligations.DecodeTreeByFamily := by
  intro w
  refine ⟨fun h => ?_, fun h => ⟨fieldX w, fieldY w, val_fieldX_eq_mod w, val_fieldY_eq_mod w, ?_⟩,
    fieldX w, fieldY w, fieldN w, fieldKK w, fieldNNN w, val_fieldX_eq_mod w, val_fieldY_eq_mod w,
    val_fieldN_eq_mod w, toNat_fieldKK_eq_mod w, toNat_fieldNNN_eq_mod w, ?_⟩
  · rw [← fieldOp_eq_div] at h
    simp only [decodeWord, h, decode0]
  · rw [← fieldOp_eq_div] at h
    simp only [← val_fieldN_eq_mod, decodeWord, h]
    refine ⟨?_, ?_, ?_, ?_, ?_, ?_, ?_, ?_, ?_, fun hn => ?_⟩
    case refine_10 =>
      simp only [List.mem_cons, List.not_mem_nil, or_false] at hn
      rcases hn with hn | hn | hn | hn | hn | hn | hn <;> simp [decode8, hn]
    all_goals
      intro hn
      simp [decode8, hn]
  · rw [← fieldOp_eq_div]
    refine ⟨?_, ?_, ?_, ?_, ?_, ?_, ?_, ?_, ?_, ?_, ?_, ?_⟩
    all_goals
      intro h
      simp only [decodeWord, h]

/-- Settles O6: each word is evaluated. -/
theorem sampleWordsDecode : Obligations.SampleWordsDecode := by
  unfold Obligations.SampleWordsDecode
  decide

end Sys2Proof.Claims
end

section
/-! The frame of each operation, and from these of each instruction: which components of the state it may
write (10_state.md, the "written by" lists). -/

namespace Sys2Proof.Machine

/-! ## Composing frames -/

section
variable {cs cs' : List Component} {s t u : State}

theorem Component.Same.trans {c : Component} (h : c.Same s t) (h' : c.Same t u) : c.Same s u := by
  cases c
  case mem | V => exact fun a => (h' a).trans (h a)
  all_goals exact Eq.trans h' h

theorem UnchangedBut.trans (h : UnchangedBut cs s t) (h' : UnchangedBut cs' t u) :
    UnchangedBut (cs ++ cs') s u := by
  intro c hc
  rw [List.mem_append, not_or] at hc
  exact (h c hc.1).trans (h' c hc.2)

theorem UnchangedBut.mono (h : UnchangedBut cs s t) (hsub : cs ⊆ cs') : UnchangedBut cs' s t :=
  fun c hc => h c fun hmem => hc (hsub hmem)

end

/-! ## The frame of each operation -/

namespace State

variable (s : State)

theorem unchangedBut_setI (v : Word) : UnchangedBut [.I] s (s.setI v) := by
  intro c hc
  cases c
  case I => simp at hc
  case mem | V => exact fun _ => rfl
  all_goals rfl

theorem unchangedBut_skipIf (b : Bool) : UnchangedBut [.PC] s (s.skipIf b) := s.unchangedBut_setPC _

theorem unchangedBut_setRegFlag (x : Reg) (v : Byte) (b : Bool) : UnchangedBut [.V] s (s.setRegFlag x v b) :=
  ((s.unchangedBut_setReg x v).trans ((s.setReg x v).unchangedBut_setReg VF _)).mono (by decide)

theorem unchangedBut_SP (n : Fin 17) : UnchangedBut [.SP] s { s with SP := n } := by
  intro c hc
  cases c
  case SP => simp at hc
  case mem | V => exact fun _ => rfl
  all_goals rfl

theorem unchangedBut_stack_SP (st : Vector Word 16) (n : Fin 17) :
    UnchangedBut [.stack, .SP] s { s with stack := st, SP := n } := by
  intro c hc
  cases c
  case stack | SP => simp at hc
  case mem | V => exact fun _ => rfl
  all_goals rfl

theorem unchangedBut_fb_redraw (fb : Framebuffer) (b : Bool) :
    UnchangedBut [.fb, .redraw] s { s with fb := fb, redraw := b } := by
  intro c hc
  cases c
  case fb | redraw => simp at hc
  case mem | V => exact fun _ => rfl
  all_goals rfl

/-- Checked stores write memory and the diagnostic log only. -/
theorem unchangedBut_storeBytes (i : Instr) (a : Nat) (bs : List Byte) :
    UnchangedBut [.mem, .diaglog] s (storeBytes i s a bs) := by
  intro c hc
  cases c
  case mem | diaglog => simp at hc
  case V => exact fun k => storeBytes_reg s i a bs k
  all_goals simp [Component.Same]

/-- A block load writes the general registers only. -/
theorem unchangedBut_loadRegs (ks : List Reg) : UnchangedBut [.V] s (s.loadRegs ks) := by
  intro c hc
  cases c
  case V => simp at hc
  case mem => exact fun a => loadRegs_byteAt s ks a
  all_goals simp [Component.Same]

/-- A draw of a random byte writes the random source only. -/
theorem unchangedBut_drawRnd : UnchangedBut [.rndIn, .draws] s s.drawRnd.2 := by
  intro c hc
  cases c
  case rndIn | draws => simp at hc
  case mem => exact fun a => drawRnd_byteAt s a
  case V => exact fun k => drawRnd_reg s k
  all_goals simp [Component.Same]

end State

/-! ## The frame of each instruction -/

/-- The components an instruction may write when it does not fault. -/
def writtenBy : Instr → List Component
  | .cls => [.fb, .redraw]
  | .ret => [.SP, .PC]
  | .call _ => [.stack, .SP, .PC]
  | .jp _ | .jpV0 _ => [.PC]
  | .seImm _ _ | .sneImm _ _ | .seReg _ _ | .sneReg _ _ | .skp _ | .sknp _ => [.PC]
  | .ldImm _ _ | .addImm _ _ | .ldReg _ _ | .orReg _ _ | .andReg _ _ | .xorReg _ _ => [.V]
  | .addReg _ _ | .sub _ _ | .shr _ _ | .subn _ _ | .shl _ _ | .ldVxDT _ => [.V]
  | .rnd _ _ => [.rndIn, .draws, .V]
  | .drw _ _ _ => [.V, .fb, .redraw]
  | .ldVxK _ => [.V, .PC]
  | .ldDTVx _ => [.DT]
  | .ldSTVx _ => [.ST]
  | .ldI _ | .addI _ | .ldF _ => [.I]
  | .ldB _ => [.mem, .diaglog]
  | .ldMemVx _ => [.mem, .diaglog, .I]
  | .ldVxMem _ => [.V, .I]

/-- What drawing leaves: the flag in VF, the framebuffer and the redraw flag (R130). -/
theorem unchangedBut_draw (s : State) (fb : Framebuffer) (b : Bool) :
    UnchangedBut [.V, .fb, .redraw] s { ({ s with fb := fb }).setFlag b with redraw := true } :=
  (s.unchangedBut_setReg VF (flagByte b)).trans (State.unchangedBut_fb_redraw _ fb true)

/-- An execution enters the instruction's fault, or writes the components of `writtenBy` alone. -/
theorem exec_frame {i : Instr} {s t : State} (h : exec i s = .next t) :
    (∃ c a, t = s.raise c i a) ∨ UnchangedBut (writtenBy i) s t := by
  cases i
  case ret =>
    rw [exec, execRet] at h
    split at h <;> cases h
    case h_1 v u hpop =>
      rw [State.pop_frame hpop]
      exact .inr ((s.unchangedBut_SP u.SP).trans (State.unchangedBut_setPC _ v))
    case h_2 => exact .inl ⟨_, _, rfl⟩
  case call nnn =>
    rw [exec, execCall] at h
    split at h <;> cases h
    case h_1 u hpush =>
      rw [State.push_frame hpush]
      exact .inr ((s.unchangedBut_stack_SP u.stack u.SP).trans (State.unchangedBut_setPC _ _))
    case h_2 => exact .inl ⟨_, _, rfl⟩
  case skp x | sknp x =>
    simp only [exec, execSkp, execSknp] at h
    split at h <;> cases h
    case h_1 => exact .inr (s.unchangedBut_skipIf _)
    case h_2 => exact .inl ⟨_, _, rfl⟩
  case drw x y n =>
    rw [exec, execDrw] at h
    split at h <;> cases h
    case h_1 => exact .inl ⟨_, _, rfl⟩
    case h_2 => exact .inr (unchangedBut_draw s _ _)
  case ldVxK x =>
    cases h
    split
    · exact .inr ((s.unchangedBut_setReg x _).mono (by simp [writtenBy]))
    · exact .inr ((s.unchangedBut_setPC _).mono (by simp [writtenBy]))
  case rnd x kk =>
    cases h
    exact .inr (s.unchangedBut_drawRnd.trans (State.unchangedBut_setReg _ x _))
  case ldB x =>
    rw [exec, execLdB] at h
    split at h <;> cases h
    case h_1 => exact .inl ⟨_, _, rfl⟩
    case h_2 => exact .inr (s.unchangedBut_storeBytes _ _ _)
  case ldMemVx x =>
    rw [exec, execLdMemVx] at h
    split at h <;> cases h
    case h_1 => exact .inl ⟨_, _, rfl⟩
    case h_2 => exact .inr ((s.unchangedBut_storeBytes _ _ _).trans (State.unchangedBut_setI _ _))
  case ldVxMem x =>
    rw [exec, execLdVxMem] at h
    split at h <;> cases h
    case h_1 => exact .inl ⟨_, _, rfl⟩
    case h_2 => exact .inr ((s.unchangedBut_loadRegs _).trans (State.unchangedBut_setI _ _))
  case cls =>
    cases h
    exact .inr (unchangedBut_clearScreen s)
  case ldDTVx x =>
    cases h
    exact .inr (unchangedBut_DT s _)
  case ldSTVx x =>
    cases h
    exact .inr (unchangedBut_ST s _)
  case jp | jpV0 =>
    cases h
    exact .inr (s.unchangedBut_setPC _)
  case seImm | sneImm | seReg | sneReg =>
    cases h
    exact .inr (s.unchangedBut_skipIf _)
  case ldI | addI | ldF =>
    cases h
    exact .inr (s.unchangedBut_setI _)
  case ldImm x kk | addImm x kk | ldReg x y | orReg x y | andReg x y | xorReg x y | ldVxDT x =>
    cases h
    exact .inr (s.unchangedBut_setReg x _)
  case addReg x y | sub x y | shr x y | subn x y | shl x y =>
    cases h
    exact .inr (s.unchangedBut_setRegFlag x _ _)

section
variable {i : Instr}

/-! ## Which instructions write each component -/

theorem V_notMem_writtenBy (h : Claims.WritesV i = false) : .V ∉ writtenBy i := by
  cases i <;> simp_all [writtenBy, Claims.WritesV]

theorem PC_notMem_writtenBy (h : Claims.WritesPC i = false) : .PC ∉ writtenBy i := by
  cases i <;> simp_all [writtenBy, Claims.WritesPC]

theorem stack_notMem_writtenBy (h : ∀ n, i ≠ .call n) : .stack ∉ writtenBy i := by
  cases i <;> simp_all [writtenBy]

theorem SP_notMem_writtenBy (h : ∀ n, i ≠ .call n) (h' : i ≠ .ret) : .SP ∉ writtenBy i := by
  cases i <;> simp_all [writtenBy]

theorem display_notMem_writtenBy (h : i ≠ .cls) (h' : ∀ x y n, i ≠ .drw x y n) :
    .fb ∉ writtenBy i ∧ .redraw ∉ writtenBy i := by
  cases i <;> simp_all [writtenBy]

theorem mem_notMem_writtenBy (h : ∀ x, i ≠ .ldB x ∧ i ≠ .ldMemVx x) : .mem ∉ writtenBy i := by
  cases i <;> simp_all [writtenBy]

theorem I_notMem_writtenBy (h : ∀ n, i ≠ .ldI n) (h' : ∀ x, i ≠ .addI x ∧ i ≠ .ldF x)
    (h'' : ∀ x, i ≠ .ldMemVx x ∧ i ≠ .ldVxMem x) : .I ∉ writtenBy i := by
  cases i <;> simp_all [writtenBy]

end

/-- Under `loadStoreQuirk` the block instructions leave I alone too (R151, R152). -/
theorem I_kept_of_quirk {i : Instr} {s t : State} (hq : s.cfg.loadStoreQuirk = true) (hl : ∀ n, i ≠ .ldI n)
    (hx : ∀ x, i ≠ .addI x ∧ i ≠ .ldF x) (h : exec i s = .next t) : t.I = s.I := by
  have hblock : ∀ n, s.blockI n = s.I := fun n => by simp [State.blockI, hq]
  by_cases hi : ∀ x, i ≠ .ldMemVx x ∧ i ≠ .ldVxMem x
  · rcases exec_frame h with ⟨c, a, rfl⟩ | hu
    · rfl
    · exact hu .I (I_notMem_writtenBy hl hx hi)
  · cases i
    case ldMemVx x | ldVxMem x =>
      simp only [exec, execLdMemVx, execLdVxMem] at h
      split at h <;> cases h
      · rfl
      · exact hblock _
    all_goals simp at hi

/-- Only CLS and DRW write the redraw flag, and they set it (R32). -/
theorem redraw_kept {i : Instr} {s t : State} (hs : s.redraw = true) (h : exec i s = .next t) : t.redraw = true := by
  cases i
  case cls =>
    cases h
    rfl
  case drw x y n =>
    rw [exec, execDrw] at h
    split at h <;> cases h
    · exact hs
    · rfl
  all_goals
    rcases exec_frame h with ⟨c, a, rfl⟩ | hu
    · exact hs
    · have hkept : t.redraw = s.redraw := hu .redraw (by simp [writtenBy])
      exact hkept.trans hs

end Sys2Proof.Machine

namespace Sys2Proof.Claims

open Sys2Proof.Machine

/-- Settles O18: a fault's entry writes PC and `run` alone, and every other execution what `exec_frame` lists. -/
theorem onlyListedInstrsWriteEachComponent : Obligations.OnlyListedInstrsWriteEachComponent := by
  intro i s t h
  have heff := Effect.of_exec h
  have htimers := LogTimerEffect.of_exec h
  refine ⟨heff.key, heff.cfg, heff.tickStep, heff.host, ?_⟩
  rcases exec_frame h with ⟨c, a, rfl⟩ | hu
  · simp
  · exact ⟨fun hi => hu .V (V_notMem_writtenBy hi), fun hi _ _ => hu .PC (PC_notMem_writtenBy hi),
      fun hi => hu .stack (stack_notMem_writtenBy hi), fun hc hr => hu .SP (SP_notMem_writtenBy hc hr),
      fun hi => htimers.delayTimer.resolve_right fun ⟨x, hx⟩ => hi x hx,
      fun hi => htimers.soundTimer.resolve_right fun ⟨x, hx⟩ => hi x hx,
      fun hc hd => ⟨hu .fb (display_notMem_writtenBy hc hd).1, hu .redraw (display_notMem_writtenBy hc hd).2⟩,
      fun hs => redraw_kept hs h, fun hi => hu .mem (mem_notMem_writtenBy hi),
      fun hl hx hq => hq.elim (fun hq => I_kept_of_quirk hq hl hx h)
        fun hi => hu .I (I_notMem_writtenBy hl hx hi)⟩

end Sys2Proof.Claims
end

section
/-! The machine's invariant: RESET establishes it, and every step keeps it (R51, R54, R71, R92, R99, R172). -/

namespace Sys2Proof.Machine

/-! ## Fields the end of a Step leaves alone -/

section
variable (s : State)

@[simp] theorem endStep_mem : (endStep s).mem = s.mem := by rw [endStep_frame]
@[simp] theorem endStep_cfg : (endStep s).cfg = s.cfg := by rw [endStep_frame]
@[simp] theorem endStep_PC : (endStep s).PC = s.PC := by rw [endStep_frame]
@[simp] theorem endStep_stack : (endStep s).stack = s.stack := by rw [endStep_frame]
@[simp] theorem endStep_SP : (endStep s).SP = s.SP := by rw [endStep_frame]
@[simp] theorem endStep_run : (endStep s).run = s.run := by rw [endStep_frame]
@[simp] theorem endStep_byteAt (a : Nat) : (endStep s).byteAt a = s.byteAt a := by simp [State.byteAt]

end

/-! ## The Step of a running core, and of a halted one -/

section
variable {s : State}

theorem engineStep_of_faulted {r : FaultRecord} (h : s.run = .faulted r) : engineStep s = .next s := by
  simp only [engineStep, h]

/-- A fetch outside the memory faults, naming the first address above 0xFFF (R55). -/
theorem engineStep_of_outside (hr : s.run = .running) (h : 0xFFE < s.PC.toNat) :
    engineStep s = .next { s with run := .faulted ⟨.memBounds, s.PC, none, some (max s.PC.toNat 0x1000)⟩ } := by
  simp only [engineStep, hr, fetch_of_gt h, State.takeFault]

end

/-! ## The return addresses and PC -/

/-- Every return address in use is PC_i + 2 of a CALL that was fetched (R92). -/
def State.ReturnsInRange (s : State) : Prop :=
  ∀ j (h : j < 16), j < s.SP.val → 2 ≤ (s.stack[j]'h).toNat ∧ (s.stack[j]'h).toNat ≤ 0x1000

section
variable {i : Instr} {s t : State}

theorem State.ReturnsInRange.of_same (h : s.ReturnsInRange) (hst : t.stack = s.stack) (hsp : t.SP = s.SP) :
    t.ReturnsInRange := by
  intro j hj hjs
  simp only [hst]
  exact h j hj (hsp ▸ hjs)

/-- CALL pushes the advanced PC. -/
theorem State.ReturnsInRange.push {v : Word} (h : s.ReturnsInRange) (hv : 2 ≤ v.toNat ∧ v.toNat ≤ 0x1000)
    (hp : s.push v = some t) : t.ReturnsInRange := by
  unfold State.push at hp
  split at hp <;> cases hp
  intro j hj hjs
  simp only at hjs ⊢
  by_cases hjsp : j = s.SP.val
  · subst hjsp
    simpa using hv
  · rw [Vector.getElem_set_ne _ _ (Ne.symm hjsp)]
    exact h j hj (by omega)

/-- RET pops a return address in use. -/
theorem State.ReturnsInRange.pop {v : Word} (h : s.ReturnsInRange) (hp : s.pop = some (v, t)) :
    v.toNat ≤ 0x1000 ∧ t.ReturnsInRange := by
  unfold State.pop at hp
  split at hp <;> cases hp
  exact ⟨(h _ _ (by omega)).2, fun j hj hjs => h j hj (by simp only at hjs; omega)⟩

/-- An instruction fetched inside the memory keeps the return addresses in range. -/
theorem exec_keeps_returns (h : exec i s = .next t) (hpc : 2 ≤ s.PC.toNat ∧ s.PC.toNat ≤ 0x1000)
    (hret : s.ReturnsInRange) : t.ReturnsInRange := by
  cases i
  case call nnn =>
    rw [exec, execCall] at h
    split at h <;> cases h
    case h_1 hp => exact (hret.push hpc hp).of_same rfl rfl
    case h_2 => exact hret.of_same rfl rfl
  case ret =>
    rw [exec, execRet] at h
    split at h <;> cases h
    case h_1 hp => exact (hret.pop hp).2.of_same rfl rfl
    case h_2 => exact hret.of_same rfl rfl
  all_goals
    rcases exec_frame h with ⟨c, a, rfl⟩ | hu
    · exact hret.of_same rfl rfl
    · exact hret.of_same (hu .stack (by simp [writtenBy])) (hu .SP (by simp [writtenBy]))

theorem toNat_skipIf_PC_le (b : Bool) (hpc : s.PC.toNat ≤ 0x1000) : (s.skipIf b).PC.toNat ≤ 0x1002 := by
  rw [State.skipIf_PC]
  split
  · rw [BitVec.toNat_add]
    simp
    omega
  · omega

theorem toNat_PC_sub_two (hpc : 2 ≤ s.PC.toNat) : (s.PC - 2).toNat = s.PC.toNat - 2 :=
  BitVec.toNat_sub_of_le (y := 2#16) hpc

/-- An instruction fetched inside the memory leaves PC at most 0x10FE, which JP V0 reaches (R99). -/
theorem exec_PC_le (h : exec i s = .next t) (hpc : 2 ≤ s.PC.toNat ∧ s.PC.toNat ≤ 0x1000)
    (hret : s.ReturnsInRange) : t.PC.toNat ≤ 0x10FE := by
  have hback := toNat_PC_sub_two hpc.1
  have hraise : ∀ c i a, (s.raise c i a).PC.toNat ≤ 0x10FE := fun c i a => by
    rw [State.raise_PC]
    omega
  have hskip : ∀ b, (s.skipIf b).PC.toNat ≤ 0x10FE := fun b => (toNat_skipIf_PC_le b hpc.2).trans (by decide)
  have hjump : ∀ (u : State) (nnn : BitVec 12), (u.setPC (zext16 nnn)).PC.toNat ≤ 0x10FE := fun u nnn => by
    have := nnn.isLt
    rw [State.setPC_PC, toNat_zext16]
    omega
  cases i
  case ret =>
    rw [exec, execRet] at h
    split at h <;> cases h
    case h_1 hp => exact (hret.pop hp).1.trans (by decide)
    case h_2 => exact hraise ..
  case jp nnn =>
    cases h
    exact hjump ..
  case call nnn =>
    rw [exec, execCall] at h
    split at h <;> cases h
    · exact hjump ..
    · exact hraise ..
  case jpV0 nnn =>
    cases h
    have := nnn.isLt
    have := (s.reg 0).isLt
    rw [State.setPC_PC, toNat_zext16, BitVec.toNat_ofNat]
    omega
  case seImm | sneImm | seReg | sneReg =>
    cases h
    exact hskip _
  case skp | sknp =>
    simp only [exec, execSkp, execSknp] at h
    split at h <;> cases h
    · exact hskip _
    · exact hraise ..
  case ldVxK =>
    cases h
    split
    · rw [State.setReg_PC]
      omega
    · rw [State.setPC_PC]
      omega
  all_goals
    rcases exec_frame h with ⟨c, a, rfl⟩ | hu
    · exact hraise ..
    · have hsame : t.PC = s.PC := hu .PC (by simp [writtenBy])
      rw [hsame]
      omega

/-- A Step keeps the return addresses in range and PC at most 0x10FE. -/
theorem engineStep_keeps_control (h : engineStep s = .next t) (hpc : s.PC.toNat ≤ 0x10FE)
    (hret : s.ReturnsInRange) : t.PC.toNat ≤ 0x10FE ∧ t.ReturnsInRange := by
  by_cases hr : s.run = .running
  · by_cases hin : s.PC.toNat ≤ 0xFFE
    · have hadv : s.advance.PC.toNat = s.PC.toNat + 2 := BitVec.toNat_add_of_lt (y := 2#16) (by simp; omega)
      have hpc' : 2 ≤ s.advance.PC.toNat ∧ s.advance.PC.toNat ≤ 0x1000 := by omega
      cases hd : decodeWord (Claims.wordAtPC s) with
      | unimpl f =>
        rw [engineStep_of_unimpl hr (fetch_of_le hin) hd] at h
        cases h
        rw [State.diag_PC]
        exact ⟨by omega, hret.of_same rfl rfl⟩
      | instr i =>
        rw [engineStep_of_instr hr (fetch_of_le hin) hd] at h
        have hret' : s.advance.ReturnsInRange := hret.of_same rfl rfl
        exact ⟨exec_PC_le h hpc' hret', exec_keeps_returns h hpc' hret'⟩
    · rw [engineStep_of_outside hr (by omega)] at h
      cases h
      exact ⟨hpc, hret.of_same rfl rfl⟩
  · obtain ⟨r, hf⟩ := State.faulted_of_ne hr
    rw [engineStep_of_faulted hf] at h
    cases h
    exact ⟨hpc, hret⟩

end

/-! ## The invariant -/

/-- The invariant does not speak of the host's side, the keypad or the redraw flag. -/
theorem State.Inv.of_host {s : State} (h : s.Inv) (keys : Keypad) (redraw : Bool) (host : List HostCmd)
    (rndIn : List Byte) (draws : Nat) :
    State.Inv { s with key := keys, redraw := redraw, host := host, rndIn := rndIn, draws := draws } :=
  ⟨h.memory, h.cycles, h.inTick, h.faultEndsTick, h.protectedBytes, h.returnAddresses, h.pcRange⟩

theorem endStep_inTick {s : State} (hc : 1 ≤ s.cfg.cyclesPerTick) :
    (endStep s).tickStep < (endStep s).cfg.cyclesPerTick := by
  rw [endStep_cfg, endStep]
  split
  · exact hc
  · split
    · assumption
    · exact hc

theorem endStep_tickStep_of_faulted {s : State} (h : s.run ≠ .running) : (endStep s).tickStep = 0 := by
  rw [endStep_of_faulted h]

/-- A Step and its end keep the invariant. -/
theorem State.Inv.step_endStep {s u : State} (hs : s.Inv) (h : engineStep s = .next u) : (endStep u).Inv := by
  have heff := StepEffect.of_engineStep h
  obtain ⟨hpc, hret⟩ := engineStep_keeps_control h hs.pcRange hs.returnAddresses
  refine ⟨?_, ?_, ?_, ?_, ?_, ?_, ?_⟩
  case refine_1 =>
    rw [endStep_cfg, endStep_mem, heff.cfg]
    exact heff.memory hs.memory
  case refine_2 =>
    rw [endStep_cfg, heff.cfg]
    exact hs.cycles
  case refine_3 => exact endStep_inTick (heff.cfg ▸ hs.cycles)
  case refine_4 =>
    rw [endStep_run]
    exact endStep_tickStep_of_faulted
  case refine_5 =>
    simp only [endStep_cfg, endStep_byteAt, heff.cfg]
    exact fun a ha hw => (heff.protectedBytes a hw).trans (hs.protectedBytes a ha hw)
  case refine_6 => exact State.ReturnsInRange.of_same hret (endStep_stack u) (endStep_SP u)
  case refine_7 =>
    rw [endStep_PC]
    exact hpc

/-- A successful RESET establishes the invariant. -/
theorem State.Inv.of_construct {cfg : Cfg} {rom : List Byte} {t : State} (h : construct cfg rom = .next t) :
    t.Inv := by
  obtain ⟨hrom, hcyc, e⟩ := construct_eq_next h
  have hprot := fun a (ha : a < Config.programStart) => byteAt_of_construct h ha
  subst e
  refine ⟨Memory.wf_image ?_, hcyc, hcyc, fun hr => absurd rfl hr, fun a ha _ => hprot a ha,
    fun j hj hjs => absurd hjs (Nat.not_lt_zero j), (by decide : State.reset.PC.toNat ≤ 0x10FE)⟩
  simp only [Config.programStart, Config.memSize]
  omega

theorem construct_standard : construct Config.standard [] = .next State.reset := rfl

end Sys2Proof.Machine

namespace Sys2Proof.Claims

open Sys2Proof.Machine

/-- Settles O20: by `step_cases` a step is a Step of the engine and its end, a RESET, or a move of the host of
which the invariant does not speak. -/
theorem everyStepKeepsTheInvariant : Obligations.EveryStepKeepsTheInvariant := by
  intro s t hs h
  rcases step_cases s with ⟨-, keys, host, draws, e, -⟩ | ⟨-, rest, -, e⟩ | ⟨-, cfg, rom, rest, -, e⟩ |
    ⟨-, keys, rest, -, e⟩ | ⟨-, -, e⟩ <;> rw [e] at h
  · obtain ⟨u, hu, rfl⟩ := onNext_eq_next.mp h
    exact (hs.of_host keys s.redraw host s.rndIn draws).step_endStep hu
  · cases h
    exact hs.of_host s.key false rest s.rndIn s.draws
  · obtain ⟨u, hu, rfl⟩ := onNext_eq_next.mp h
    exact (State.Inv.of_construct hu).of_host u.key u.redraw rest s.rndIn s.draws
  · cases h
    exact hs.of_host s.key s.redraw rest s.rndIn s.draws
  · cases h
    exact hs

/-- Settles O21: the state after reset is RESET with the standard configuration and the empty ROM. -/
theorem resetMeetsTheInvariant : Obligations.ResetMeetsTheInvariant := .of_construct construct_standard

end Sys2Proof.Claims
end

section
/-! The fetch, the Step around it, and the host's moves (R43, R55, R71, R167, R172). -/

namespace Sys2Proof.Machine

section
variable {s t : State} {i : Instr}

/-! ## The Step of a running core, by the decoded instruction -/

theorem fetch_wordAtPC (h : s.PC.toNat ≤ 0xFFE) : fetch s = .word (Claims.wordAtPC s) := fetch_of_le h

theorem engineStep_of_decode (hr : s.run = .running) (hpc : s.PC.toNat ≤ 0xFFE)
    (hd : decodeWord (Claims.wordAtPC s) = .instr i) : engineStep s = exec i { s with PC := s.PC + 2 } :=
  engineStep_of_instr hr (fetch_wordAtPC hpc) hd

/-- The end of a Step writes the timers and the tick's counter only. -/
theorem unchangedBut_endStep (s : State) : UnchangedBut [.DT, .ST, .tickStep] s (endStep s) := by
  intro c hc
  rw [endStep_frame]
  cases c
  case DT | ST | tickStep => simp at hc
  case mem | V => exact fun _ => rfl
  all_goals rfl

/-! ## The host's moves -/

/-- RESET at a tick boundary (R43, R180). -/
theorem step_of_reset {cfg : Cfg} {rom : List Byte} {rest : List HostCmd} (hb : s.atBoundary = true)
    (hh : s.host = .reset cfg rom :: rest) :
    step s = onNext (fun t => { t with host := rest, rndIn := s.rndIn, draws := s.draws }) (construct cfg rom) := by
  rw [step_of_boundary hb, hostStep, hh]

theorem atBoundary_of_faulted {r : FaultRecord} (h : s.run = .faulted r) : s.atBoundary = true :=
  s.atBoundary_iff.mpr (.inr (by simp [h]))

/-- TICK on a halted core is taken off the list and has no other effect (R167). -/
theorem step_tick_of_faulted {r : FaultRecord} {keys : Keypad} {rest : List HostCmd} (h : s.run = .faulted r)
    (hh : s.host = .tick keys :: rest) : step s = .next { s with host := rest } := by
  simp only [step_of_boundary (atBoundary_of_faulted h), hostStep, hh, beginTick, h]

theorem step_nil_of_faulted {r : FaultRecord} (h : s.run = .faulted r) (hh : s.host = []) : step s = .next s := by
  simp only [step_of_boundary (atBoundary_of_faulted h), hostStep, hh, h]

/-- The host's side and the redraw flag. -/
theorem unchangedBut_redraw_host (s : State) (b : Bool) (l : List HostCmd) :
    UnchangedBut [.redraw, .host] s { s with redraw := b, host := l } := by
  intro c hc
  cases c
  case redraw | host => simp at hc
  case mem | V => exact fun _ => rfl
  all_goals rfl

/-! ## Placing a word (log entry 11) -/

theorem State.toNat_fetchAddr_le (s : State) : s.fetchAddr.toNat ≤ 0xFFE := by
  unfold fetchAddr
  split
  · omega
  · decide

theorem State.fetchAddr_of_le (h : s.PC.toNat ≤ 0xFFE) : s.fetchAddr = s.PC := if_pos (by omega)

theorem State.withFetchWord_eq (s : State) (w : Word) : s.withFetchWord 16 w.toNat = s.placeWord w := by
  rw [withFetchWord, Nat.mod_eq_of_lt w.isLt, BitVec.ofNat_toNat, BitVec.setWidth_eq]

/-- The placed word's two bytes stand at `fetchAddr`, and every other byte is the old one. -/
theorem State.placeWord_byteAt (s : State) (w : Word) (a : Nat) :
    (s.placeWord w).byteAt a = if a = s.fetchAddr.toNat + 1 then loByte w
      else if a = s.fetchAddr.toNat then hiByte w else s.byteAt a := by
  rw [placeWord, pokeByte_byteAt, pokeByte_byteAt]
  rfl

theorem fetch_placeWord (s : State) (w : Word) : fetch (s.placeWord w) = .word w := by
  have hpc : (s.placeWord w).PC = s.fetchAddr := rfl
  have hw : Claims.wordAtPC (s.placeWord w) = wordOfBytes (hiByte w) (loByte w) := by
    simp [Claims.wordAtPC, wordOfBytes, hpc, State.placeWord_byteAt]
  rw [fetch_wordAtPC (hpc ▸ s.toNat_fetchAddr_le), hw, wordOfBytes_hi_lo]

theorem State.placeWord_host (s : State) (w : Word) :
    (s.placeWord w).host = if s.tickStep = 0 then beforeTick s.host else s.host := rfl

theorem State.placeWord_host_of_ready (w : Word)
    (h : s.tickStep ≠ 0 ∨ s.host = [] ∨ ∃ keys rest, s.host = .tick keys :: rest) :
    (s.placeWord w).host = s.host := by
  rw [placeWord_host]
  split
  · rcases h with h | h | ⟨keys, rest, h⟩
    · contradiction
    · rw [h]; rfl
    · rw [h]; rfl
  · rfl

/-- In a state that could fetch already, placing a word writes memory only. -/
theorem State.unchangedBut_placeWord (w : Word) (hr : s.run = .running) (hpc : s.PC.toNat ≤ 0xFFE)
    (h : s.tickStep ≠ 0 ∨ s.host = [] ∨ ∃ keys rest, s.host = .tick keys :: rest) :
    UnchangedBut [.mem] s (s.placeWord w) := by
  intro c hc
  cases c
  case mem => simp at hc
  case V => exact fun _ => rfl
  case PC => exact fetchAddr_of_le hpc
  case run => exact hr.symm
  case host => exact placeWord_host_of_ready w h
  all_goals rfl

end

end Sys2Proof.Machine

namespace Sys2Proof.Claims

open Sys2Proof.Machine

/-- Settles O7: `fetch_of_le` and `fetch_of_gt`. -/
theorem fetchIsBigEndianInBounds : Obligations.FetchIsBigEndianInBounds := by
  refine fun s => ⟨fetch_wordAtPC, fun h => ?_, fun h => ?_⟩
  · rw [fetch_of_gt (by omega), h]
    rfl
  · rw [fetch_of_gt (by omega), max_eq_left (by omega)]

/-- Settles O8: the Step is the decoded instruction, and `step_of_midTick`, `hostStep_of_tick` and
`hostStep_of_nil` say which Step the machine's step runs. -/
theorem stepRunsTheDecodedInstr : Obligations.StepRunsTheDecodedInstr := by
  intro s i hr hpc hd
  have hb : s.tickStep = 0 → s.atBoundary = true := fun ht => s.atBoundary_iff.mpr (.inl ht)
  refine ⟨engineStep_of_decode hr hpc hd, fun ht => ?_, fun keys rest ht hh => ?_, fun ht hh => ?_⟩
  · rw [step_of_midTick ht hr, engineStep_of_decode hr hpc hd]
  · rw [step_of_boundary (hb ht), hostStep_of_tick hr hh]
    exact congrArg _ (engineStep_of_decode (s := { s with host := rest, key := keys }) hr hpc hd)
  · rw [step_of_boundary (hb ht), hostStep_of_nil hr hh]
    exact congrArg _ (engineStep_of_decode
      (s := { s with draws := s.draws + 1, key := Config.hostKeys s.draws }) hr hpc hd)

/-- Settles O9: the three cases of `endStep`. -/
theorem endStepMovesTheTickOn : Obligations.EndStepMovesTheTickOn := fun u =>
  ⟨endStep_of_faulted, endStep_of_midTick,
    fun hr ht => ⟨by rw [endStep_of_last hr ht], unchangedBut_endStep u⟩⟩

/-- Settles O10: the placed bytes are what `fetch` reads, and `step_of_ready` gives the Step that runs them. -/
theorem withFetchWordIsFetched : Obligations.WithFetchWordIsFetched := by
  rintro s t w rfl
  rw [State.withFetchWord_eq]
  have hready : (s.placeWord w).tickStep = 0 →
      (s.placeWord w).host = [] ∨ ∃ keys rest, (s.placeWord w).host = .tick keys :: rest := by
    intro (ht : s.tickStep = 0)
    rw [State.placeWord_host, if_pos ht]
    exact beforeTick_cases s.host
  obtain ⟨keys, host, draws, hstep, hmid⟩ := step_of_ready (s := s.placeWord w) rfl hready
  refine ⟨fetch_placeWord s w, rfl, hready, ⟨_, ⟨keys, host, draws, rfl⟩, fun ht => ?_, fetch_placeWord s w,
    hstep, fun i hd => ?_⟩, fun hr hpc h => ⟨s.unchangedBut_placeWord w hr hpc h, fun a ha ha' => ?_⟩⟩
  · obtain ⟨rfl, rfl, rfl⟩ := hmid ht
    rfl
  · rw [hstep]
    exact congrArg _ (engineStep_of_instr rfl (fetch_placeWord s w) hd)
  · rw [State.placeWord_byteAt, State.fetchAddr_of_le hpc, if_neg ha', if_neg ha]

/-- Settles O11: what memory reads after a checked store above `WP_TOP`. -/
theorem storeIsSeenByTheNextFetch : Obligations.StoreIsSeenByTheNextFetch := by
  intro s i a v hpc ha
  have hPC : (s.memWrite i a v).PC = s.PC := State.memWrite_PC s i a v
  rw [fetch_of_le (hPC ▸ hpc), hPC, State.memWrite_byteAt, State.memWrite_byteAt]
  simp only [ha, and_true, eq_comm (b := a)]
  rfl

/-- Settles O13: on a halted core neither `engineStep` nor `tick` does anything, and the machine's step at most
takes the TICK off its list. -/
theorem haltedCoreDoesNothing : Obligations.HaltedCoreDoesNothing := fun s r h =>
  ⟨engineStep_of_faulted h, fun keys => by simp only [tick, h], step_nil_of_faulted h,
    fun keys rest => step_tick_of_faulted h⟩

/-- Settles O14: by `step_cases`, with `construct_cases` for the one move that can be refused. -/
theorem stepAnswersNextUnlessResetRefused : Obligations.StepAnswersNextUnlessResetRefused := by
  intro s
  rcases step_cases s with ⟨-, keys, host, draws, e, -⟩ | ⟨-, rest, -, e⟩ | ⟨hb, cfg, rom, rest, hh, e⟩ |
    ⟨-, keys, rest, -, e⟩ | ⟨-, -, e⟩
  · obtain ⟨u, hu, -⟩ := engineStep_effect { s with key := keys, host := host, draws := draws }
    exact .inl ⟨endStep u, by rw [e, hu]; rfl⟩
  · exact .inl ⟨_, e⟩
  · rcases construct_cases cfg rom with ⟨-, -, hc⟩ | ⟨-, hz, hc⟩ | ⟨hlen, hc⟩ <;> rw [hc] at e
    · exact .inl ⟨_, e⟩
    · exact .inr ⟨cfg, rom, rest, hh, hb, .inr ⟨hz, e⟩⟩
    · exact .inr ⟨cfg, rom, rest, hh, hb, .inl ⟨hlen, e⟩⟩
  · exact .inl ⟨_, e⟩
  · exact .inl ⟨_, e⟩

/-- Settles O16: `StepEffect.log`. -/
theorem stepAppendsDiagnosticsOfItsOwnPC : Obligations.StepAppendsDiagnosticsOfItsOwnPC :=
  fun _ _ h => (StepEffect.of_engineStep h).log

/-- Settles O27: ST after the decrement decides beep on a running core. -/
theorem beepIsSoundTimerAfterDecrement : Obligations.BeepIsSoundTimerAfterDecrement := by
  refine ⟨fun u hr ht => ⟨?_, fun h1 => ?_⟩, State.soundActive_iff, fun s hr => ?_⟩
  · rw [State.beep_iff, endStep_run, and_iff_right hr]
  · have hST : (endStep u).ST = 0 := BitVec.eq_of_toNat_eq (by rw [toNat_endStep_ST hr ht, h1]; rfl)
    refine ⟨hST, ?_⟩
    rw [← Bool.not_eq_true, State.beep_iff]
    exact fun h => h.2 hST
  · rw [← Bool.not_eq_true, State.beep_iff]
    exact fun h => hr h.1

/-- Settles O29: ACK_REDRAW and RESET are moves of the host at a tick boundary. -/
theorem hostCommandsActAtTickBoundaries : Obligations.HostCommandsActAtTickBoundaries := fun s hb =>
  ⟨fun rest => step_of_ackRedraw hb, fun cfg rom rest t hh hc => by rw [step_of_reset hb hh, hc]; rfl⟩

/-- Settles O30: of the cases of `step_cases` only RESET writes the configuration, and on a halted core the
others write the redraw flag and the list of commands alone. -/
theorem onlyResetChangesCfgOrLeavesFaulted : Obligations.OnlyResetChangesCfgOrLeavesFaulted := by
  intro s t h hno
  rcases step_cases s with ⟨hr, keys, host, draws, e, -⟩ | ⟨-, rest, -, e⟩ | ⟨hb, cfg, rom, rest, hh, -⟩ |
    ⟨-, keys, rest, -, e⟩ | ⟨-, -, e⟩
  · rw [e] at h
    obtain ⟨u, hu, rfl⟩ := onNext_eq_next.mp h
    exact ⟨(endStep_cfg u).trans (StepEffect.of_engineStep hu).cfg, fun hne => absurd hr hne⟩
  · cases e.symm.trans h
    exact ⟨rfl, fun _ => unchangedBut_redraw_host s false rest⟩
  · rw [s.atBoundary_iff.mpr hb] at hno
    exact absurd hh (hno.resolve_left (by decide) cfg rom rest)
  · cases e.symm.trans h
    exact ⟨rfl, fun _ => unchangedBut_redraw_host s s.redraw rest⟩
  · cases e.symm.trans h
    exact ⟨rfl, fun _ => unchangedBut_redraw_host s s.redraw s.host⟩

end Sys2Proof.Claims
end

section
/-! The instructions that can fault: what each leaves when its check passes and when it fails, and so which fault
a Step enters (R59, R92, R94, R143, R167, R169). -/

namespace Sys2Proof.Machine

section
variable {s : State}

/-! ## One equation per outcome of the check -/

theorem exec_ret_of_pos (h : 0 < s.SP.val) :
    exec .ret s = .next (State.setPC { s with SP := ⟨s.SP.val - 1, by omega⟩ }
      (s.stack[s.SP.val - 1]'(by omega))) := by
  simp only [exec, execRet, State.pop_of_pos h]

theorem exec_ret_of_empty (h : s.SP = 0) : exec .ret s = .next (s.raise .stackUnderflow .ret none) := by
  simp only [exec, execRet, State.pop_of_empty h]

theorem exec_call_of_lt (nnn : BitVec 12) (h : s.SP.val < 16) :
    exec (.call nnn) s = .next (State.setPC
      { s with stack := s.stack.set s.SP.val s.PC h, SP := ⟨s.SP.val + 1, by omega⟩ } (zext16 nnn)) := by
  simp only [exec, execCall, State.push_of_lt h]

theorem exec_call_of_full (nnn : BitVec 12) (h : s.SP = 16) :
    exec (.call nnn) s = .next (s.raise .stackOverflow (.call nnn) none) := by
  simp only [exec, execCall, State.push_of_full h]

section
variable {x : Reg}

theorem exec_skp_of_lt (h : (s.reg x).toNat < 16) :
    exec (.skp x) s = .next (s.skipIf (s.key[(s.reg x).toNat]'h)) := by
  simp only [exec, execSkp, State.keyAt_of_le h]

theorem exec_sknp_of_lt (h : (s.reg x).toNat < 16) :
    exec (.sknp x) s = .next (s.skipIf (!s.key[(s.reg x).toNat]'h)) := by
  simp only [exec, execSknp, State.keyAt_of_le h]

theorem exec_skp_of_gt (h : 0xF < (s.reg x).toNat) : exec (.skp x) s = .next (s.raise .keyRange (.skp x) none) := by
  simp only [exec, execSkp, State.keyAt_of_gt h]

theorem exec_sknp_of_gt (h : 0xF < (s.reg x).toNat) :
    exec (.sknp x) s = .next (s.raise .keyRange (.sknp x) none) := by
  simp only [exec, execSknp, State.keyAt_of_gt h]

end

/-! ### The data range at I -/

theorem rangeFault_of_outside {n : Nat} (h1 : 1 ≤ n) (h : 0x1000 < s.I.toNat + n) :
    s.rangeFault n = some (max s.I.toNat 0x1000) := State.rangeFault_eq_some.mpr ⟨⟨h1, h⟩, rfl⟩

theorem exec_of_range_outside {i : Instr} (h1 : 1 ≤ Claims.rangeBytes i)
    (h : 0x1000 < s.I.toNat + Claims.rangeBytes i) :
    exec i s = .next (s.raise .memBounds i (some (max s.I.toNat 0x1000))) := by
  cases i
  case drw x y n => simp only [exec, execDrw, rangeFault_of_outside (n := n.val) h1 h]
  case ldB => simp only [exec, execLdB, rangeFault_of_outside (n := 3) h1 h]
  case ldMemVx x => simp only [exec, execLdMemVx, rangeFault_of_outside (n := x.val + 1) h1 h]
  case ldVxMem x => simp only [exec, execLdVxMem, rangeFault_of_outside (n := x.val + 1) h1 h]
  all_goals exact absurd h1 (by simp [Claims.rangeBytes])

section
variable (x y : Reg)

theorem exec_drw_of_inside {n : Fin 16} (h : n.val = 0 ∨ s.I.toNat + n.val ≤ 0x1000) :
    exec (.drw x y n) s = .next { ({ s with
      fb := (s.fb.draw (s.spriteCells (s.reg x) (s.reg y) n.val)).1 }).setFlag
        (s.fb.draw (s.spriteCells (s.reg x) (s.reg y) n.val)).2 with redraw := true } := by
  simp only [exec, execDrw, State.rangeFault_eq_none.mpr h]

theorem exec_ldB_of_inside (h : s.I.toNat + 3 ≤ 0x1000) :
    exec (.ldB x) s = .next (s.storeBytes (.ldB x) s.I.toNat (bcdDigits (s.reg x))) := by
  simp only [exec, execLdB, State.rangeFault_eq_none.mpr (.inr h)]

theorem exec_ldMemVx_of_inside (h : s.I.toNat + (x.val + 1) ≤ 0x1000) :
    exec (.ldMemVx x) s = .next ((s.storeBytes (.ldMemVx x) s.I.toNat ((regsUpTo x).map s.reg)).setI
      (s.blockI (x.val + 1))) := by
  simp only [exec, execLdMemVx, State.rangeFault_eq_none.mpr (.inr h)]

theorem exec_ldVxMem_of_inside (h : s.I.toNat + (x.val + 1) ≤ 0x1000) :
    exec (.ldVxMem x) s = .next ((s.loadRegs (regsUpTo x)).setI (s.blockI (x.val + 1))) := by
  simp only [exec, execLdVxMem, State.rangeFault_eq_none.mpr (.inr h)]

end

/-! ## The fault an instruction enters -/

/-- The fatal fault an instruction's own check raises, with its address, or none (R169). -/
def instrFault (s : State) : Instr → Option (FaultCause × Option Nat)
  | .ret => if s.SP = 0 then some (.stackUnderflow, none) else none
  | .call _ => if s.SP = 16 then some (.stackOverflow, none) else none
  | .skp x | .sknp x => if 0xF < (s.reg x).toNat then some (.keyRange, none) else none
  | i =>
    if 1 ≤ Claims.rangeBytes i ∧ 0x1000 < s.I.toNat + Claims.rangeBytes i then
      some (.memBounds, some (max s.I.toNat 0x1000))
    else none

/-- An instruction whose check fails does nothing but enter its fault (R167). -/
theorem exec_of_instrFault {i : Instr} {c : FaultCause} {a : Option Nat} (h : instrFault s i = some (c, a)) :
    exec i s = .next (s.raise c i a) := by
  cases i <;> simp only [instrFault, Option.ite_none_right_eq_some, Option.some.injEq, Prod.mk.injEq] at h <;>
    obtain ⟨hf, rfl, rfl⟩ := h
  case ret => exact exec_ret_of_empty hf
  case call => exact exec_call_of_full _ hf
  case skp => exact exec_skp_of_gt hf
  case sknp => exact exec_sknp_of_gt hf
  all_goals exact exec_of_range_outside hf.1 hf.2

theorem inside_of_no_fault {n : Nat} {f : FaultCause × Option Nat}
    (h : (if 1 ≤ n ∧ 0x1000 < s.I.toNat + n then some f else none) = none) :
    n = 0 ∨ s.I.toNat + n ≤ 0x1000 := by
  by_contra hn
  rw [if_pos (by omega)] at h
  cases h

section
variable {x : Reg} {nnn : BitVec 12}

theorem SP_pos_of_no_fault (h : instrFault s .ret = none) : 0 < s.SP.val := by
  simpa [instrFault, Fin.pos_iff_ne_zero] using h

theorem SP_lt_of_no_fault (h : instrFault s (.call nnn) = none) : s.SP.val < 16 := by
  have hne : s.SP ≠ 16 := by simpa [instrFault] using h
  exact Fin.lt_last_iff_ne_last.mpr hne

theorem key_lt_of_no_fault (h : instrFault s (.skp x) = none) : (s.reg x).toNat < 16 := by
  have hle : (s.reg x).toNat ≤ 15 := by simpa [instrFault] using h
  exact Nat.lt_succ_of_le hle

theorem ldB_inside_of_no_fault (h : instrFault s (.ldB x) = none) : s.I.toNat + 3 ≤ 0x1000 :=
  (inside_of_no_fault (n := 3) h).resolve_left (Nat.succ_ne_zero 2)

theorem block_inside_of_no_fault (h : instrFault s (.ldMemVx x) = none) : s.I.toNat + (x.val + 1) ≤ 0x1000 :=
  (inside_of_no_fault (n := x.val + 1) h).resolve_left (Nat.succ_ne_zero _)

end

/-- An instruction whose check passes does not fault. -/
theorem exec_run_of_no_instrFault {i : Instr} (h : instrFault s i = none) :
    Completes (exec i s) fun t => t.run = s.run := by
  cases i
  case ret => exact ⟨_, exec_ret_of_pos (SP_pos_of_no_fault h), rfl⟩
  case call nnn => exact ⟨_, exec_call_of_lt nnn (SP_lt_of_no_fault h), rfl⟩
  case skp x => exact ⟨_, exec_skp_of_lt (key_lt_of_no_fault h), rfl⟩
  case sknp x => exact ⟨_, exec_sknp_of_lt (key_lt_of_no_fault h), rfl⟩
  case drw x y n => exact ⟨_, exec_drw_of_inside x y (inside_of_no_fault (n := n.val) h), rfl⟩
  case ldB x => exact ⟨_, exec_ldB_of_inside x (ldB_inside_of_no_fault h), State.storeBytes_run ..⟩
  case ldMemVx x => exact ⟨_, exec_ldMemVx_of_inside x (block_inside_of_no_fault h), State.storeBytes_run ..⟩
  case ldVxMem x => exact ⟨_, exec_ldVxMem_of_inside x (block_inside_of_no_fault h), State.loadRegs_run ..⟩
  case rnd => exact ⟨_, rfl, State.drawRnd_run s⟩
  case ldVxK => exact ⟨_, rfl, by split <;> rfl⟩
  all_goals exact ⟨_, rfl, rfl⟩

/-- The decoding of an instruction that can fault keeps every bit of its word. -/
theorem keptBits_of_instrFault {i : Instr} {f : FaultCause × Option Nat} (h : instrFault s i = some f) :
    Claims.keptBits i = 0xFFFF := by
  cases i
  case seReg | sneReg => simp [instrFault, Claims.rangeBytes] at h
  all_goals rfl

end

end Sys2Proof.Machine

namespace Sys2Proof.Claims

open Sys2Proof.Machine

section
variable {s : State}

theorem expectedFault_of_outside (h : 0xFFE < s.PC.toNat) :
    expectedFault s = some ⟨.memBounds, s.PC, none, some (max s.PC.toNat 0x1000)⟩ := if_pos h

theorem expectedFault_of_unimpl {f : UnimplFamily} (hpc : s.PC.toNat ≤ 0xFFE)
    (hd : decodeWord (wordAtPC s) = .unimpl f) : expectedFault s = none := by
  rw [expectedFault, if_neg (by omega), hd]

/-- Where the word at PC decodes, the fault expected of a Step is the one its instruction's check raises. -/
theorem expectedFault_of_instr {i : Instr} (hpc : s.PC.toNat ≤ 0xFFE) (hd : decodeWord (wordAtPC s) = .instr i) :
    expectedFault s = (instrFault s i).map fun f => ⟨f.1, s.PC, some (wordAtPC s), f.2⟩ := by
  rw [expectedFault, if_neg (by omega), hd]
  cases i <;> simp only [instrFault, apply_ite (Option.map _)] <;> rfl

/-- The fault an instruction enters, from the state before the advance: PC_i is the old PC, and the record's word
is the fetched one. -/
theorem advance_raise {i : Instr} {f : FaultCause × Option Nat} (hd : decodeWord (wordAtPC s) = .instr i)
    (h : instrFault s i = some f) :
    s.advance.raise f.1 i f.2 = { s with run := .faulted ⟨f.1, s.PC, some (wordAtPC s), f.2⟩ } := by
  have hpc : s.PC + 2 - 2 = s.PC := BitVec.add_sub_cancel ..
  rw [← encode_of_decodeWord hd (keptBits_of_instrFault h)]
  simp only [State.raise, State.takeFault, State.instrAddr, State.advance, hpc]

end

/-- Settles O12: a fetch outside the memory faults, an UNIMPL word does not, and an instruction faults exactly
when its own check raises, before any write. -/
theorem stepFaultsPreciselyWhenExpected : Obligations.StepFaultsPreciselyWhenExpected := by
  intro s hr
  by_cases hpc : s.PC.toNat ≤ 0xFFE
  · cases hd : decodeWord (wordAtPC s) with
    | unimpl f =>
      rw [expectedFault_of_unimpl hpc hd]
      exact ⟨_, engineStep_of_unimpl hr (fetch_wordAtPC hpc) hd, hr⟩
    | instr i =>
      rw [expectedFault_of_instr hpc hd, engineStep_of_instr hr (fetch_wordAtPC hpc) hd]
      cases hf : instrFault s i with
      | none =>
        obtain ⟨t, ht, hrun⟩ := exec_run_of_no_instrFault (s := s.advance) hf
        exact ⟨t, ht, hrun.trans hr⟩
      | some f => exact ⟨_, exec_of_instrFault (s := s.advance) hf, advance_raise hd hf⟩
  · rw [expectedFault_of_outside (not_le.mp hpc)]
    exact ⟨_, engineStep_of_outside hr (not_le.mp hpc), rfl⟩

/-- Settles O15: the check of the range precedes every access, and its failure is the fault's entry alone. -/
theorem dataRangeFaultsBeforeAnyAccess : Obligations.DataRangeFaultsBeforeAnyAccess :=
  fun _ _ h1 h => exec_of_range_outside h1 h

end Sys2Proof.Claims
end

section
/-! The components no instruction reads, what RESET leaves, and the host's TICK as the machine's steps
(R37, R172, R180 to R182). -/

namespace Sys2Proof.Machine

/-! ## Redraw, the log and ST are not read -/

/-- The state with other values of the redraw flag, the diagnostic log and ST. -/
abbrev State.withUnread (s : State) (b : Bool) (l : List DiagRecord) (v : Byte) : State :=
  { s with redraw := b, diaglog := l, ST := v }

/-- Two states that differ in the redraw flag, the diagnostic log and ST alone. -/
def SameCore (s s' : State) : Prop := ∃ b l v, s' = s.withUnread b l v

section
variable {s s' : State}

theorem SameCore.unchangedBut (h : SameCore s s') : UnchangedBut [.redraw, .diaglog, .ST] s s' := by
  obtain ⟨b, l, v, rfl⟩ := h
  intro c hc
  cases c
  case redraw | diaglog | ST => simp at hc
  case mem | V => exact fun _ => rfl
  all_goals rfl

theorem SameCore.memWrite (h : SameCore s s') (i : Instr) (a : Nat) (w : Byte) :
    SameCore (s.memWrite i a w) (s'.memWrite i a w) := by
  obtain ⟨b, l, v, rfl⟩ := h
  unfold State.memWrite
  split
  · exact ⟨b, _, v, rfl⟩
  · exact ⟨b, l, v, rfl⟩

theorem SameCore.storeBytes (h : SameCore s s') (i : Instr) (a : Nat) (bs : List Byte) :
    SameCore (s.storeBytes i a bs) (s'.storeBytes i a bs) := by
  induction bs generalizing s s' a with
  | nil => exact h
  | cons w bs ih => exact ih (h.memWrite i a w) (a + 1)

theorem SameCore.loadRegs (h : SameCore s s') (ks : List Reg) : SameCore (s.loadRegs ks) (s'.loadRegs ks) := by
  induction ks generalizing s s' with
  | nil => exact h
  | cons k ks ih =>
    obtain ⟨b, l, v, rfl⟩ := h
    exact ih ⟨b, l, v, rfl⟩

theorem SameCore.setI (h : SameCore s s') (w : Word) : SameCore (s.setI w) (s'.setI w) := by
  obtain ⟨b, l, v, rfl⟩ := h
  exact ⟨b, l, v, rfl⟩

theorem SameCore.drawRnd_setReg (h : SameCore s s') (x : Reg) (kk : Byte) :
    SameCore (s.drawRnd.2.setReg x (s.drawRnd.1 &&& kk)) (s'.drawRnd.2.setReg x (s'.drawRnd.1 &&& kk)) := by
  obtain ⟨b, l, v, rfl⟩ := h
  rcases s.drawRnd_cases with ⟨r, rest, hl, e⟩ | ⟨hl, e⟩
  · have e' : (s.withUnread b l v).drawRnd = (r, { s.withUnread b l v with rndIn := rest }) := by
      simp only [State.drawRnd, hl]
    rw [e, e']
    exact ⟨b, l, v, rfl⟩
  · have e' : (s.withUnread b l v).drawRnd =
        (Config.rndByte s.draws, { s.withUnread b l v with draws := s.draws + 1 }) := by
      simp only [State.drawRnd, hl]
    rw [e, e']
    exact ⟨b, l, v, rfl⟩

/-- An instruction takes two such states to two such states. -/
theorem SameCore.exec (h : SameCore s s') (i : Instr) {t : State} (ht : exec i s = .next t) :
    Completes (Machine.exec i s') (SameCore t) := by
  obtain ⟨b, l, v, rfl⟩ := h
  have hsame : SameCore s (s.withUnread b l v) := ⟨b, l, v, rfl⟩
  cases hf : instrFault s i with
  | some f =>
    cases (exec_of_instrFault hf).symm.trans ht
    exact ⟨_, exec_of_instrFault (s := s.withUnread b l v) hf, b, l, v, rfl⟩
  | none =>
    cases i
    case ret =>
      have hpos := SP_pos_of_no_fault hf
      cases (exec_ret_of_pos hpos).symm.trans ht
      exact ⟨_, exec_ret_of_pos (s := s.withUnread b l v) hpos, b, l, v, rfl⟩
    case call nnn =>
      have hlt := SP_lt_of_no_fault hf
      cases (exec_call_of_lt nnn hlt).symm.trans ht
      exact ⟨_, exec_call_of_lt (s := s.withUnread b l v) nnn hlt, b, l, v, rfl⟩
    case skp x =>
      have hlt := key_lt_of_no_fault hf
      cases (exec_skp_of_lt hlt).symm.trans ht
      exact ⟨_, exec_skp_of_lt (s := s.withUnread b l v) hlt, b, l, v, rfl⟩
    case sknp x =>
      have hlt := key_lt_of_no_fault hf
      cases (exec_sknp_of_lt hlt).symm.trans ht
      exact ⟨_, exec_sknp_of_lt (s := s.withUnread b l v) hlt, b, l, v, rfl⟩
    case drw x y n =>
      have hin := inside_of_no_fault (n := n.val) hf
      cases (exec_drw_of_inside x y hin).symm.trans ht
      exact ⟨_, exec_drw_of_inside (s := s.withUnread b l v) x y hin, true, l, v, rfl⟩
    case ldB x =>
      have hin := ldB_inside_of_no_fault hf
      cases (exec_ldB_of_inside x hin).symm.trans ht
      exact ⟨_, exec_ldB_of_inside (s := s.withUnread b l v) x hin, hsame.storeBytes ..⟩
    case ldMemVx x =>
      have hin := block_inside_of_no_fault hf
      cases (exec_ldMemVx_of_inside x hin).symm.trans ht
      exact ⟨_, exec_ldMemVx_of_inside (s := s.withUnread b l v) x hin, (hsame.storeBytes ..).setI _⟩
    case ldVxMem x =>
      have hin := block_inside_of_no_fault (x := x) hf
      cases (exec_ldVxMem_of_inside x hin).symm.trans ht
      exact ⟨_, exec_ldVxMem_of_inside (s := s.withUnread b l v) x hin, (hsame.loadRegs _).setI _⟩
    case ldVxK x =>
      cases hk : s.leastKey with
      | none =>
        cases (exec_ldVxK_of_noKey x hk).symm.trans ht
        exact ⟨_, exec_ldVxK_of_noKey (s := s.withUnread b l v) x hk, b, l, v, rfl⟩
      | some k =>
        cases (exec_ldVxK_of_key x hk).symm.trans ht
        exact ⟨_, exec_ldVxK_of_key (s := s.withUnread b l v) x hk, b, l, v, rfl⟩
    case rnd x kk =>
      cases ht
      exact ⟨_, rfl, hsame.drawRnd_setReg x kk⟩
    case cls =>
      cases ht
      exact ⟨_, rfl, true, l, v, rfl⟩
    case ldSTVx x =>
      cases ht
      exact ⟨_, rfl, b, l, s.reg x, rfl⟩
    all_goals
      cases ht
      exact ⟨_, rfl, b, l, v, rfl⟩

end

/-! ## RESET -/

/-- From the program start on a successful RESET leaves the ROM's bytes, and zeros after them (R182). -/
theorem byteAt_of_construct_rom {cfg : Cfg} {rom : List Byte} {t : State} (h : construct cfg rom = .next t)
    {a : Nat} (ha : 0x200 ≤ a) : t.byteAt a = rom.getD (a - 0x200) 0 := by
  obtain ⟨-, -, rfl⟩ := construct_eq_next h
  show Memory.read cfg.font (Memory.image cfg.font 0x200 rom) a = _
  obtain ⟨j, rfl⟩ := Nat.exists_eq_add_of_le ha
  rw [Nat.add_sub_cancel_left]
  by_cases hj : j < rom.length
  · rw [Memory.read_image j hj, List.getD_eq_getElem _ _ hj]
  · rw [Memory.read_image_of_outside (.inr (by omega)), List.getD_eq_default _ _ (by omega)]
    exact dif_neg (by omega)

/-- Between the font and the program start a successful RESET leaves zeros (R180). -/
theorem byteAt_of_construct_gap {cfg : Cfg} {rom : List Byte} {t : State} (h : construct cfg rom = .next t)
    {a : Nat} (ha : 0x50 ≤ a) (ha' : a < 0x200) : t.byteAt a = 0 := by
  rw [byteAt_of_construct h ha']
  exact dif_neg (by omega)

/-- RESET is refused for a ROM of more than 3584 bytes (R182). -/
theorem construct_of_long (cfg : Cfg) {rom : List Byte} (h : 3584 < rom.length) :
    construct cfg rom = .refused .romTooLong := by
  rcases construct_cases cfg rom with ⟨hle, -⟩ | ⟨hle, -⟩ | ⟨-, e⟩
  · omega
  · omega
  · exact e

theorem construct_completes {cfg : Cfg} {rom : List Byte} (hc : 1 ≤ cfg.cyclesPerTick) (h : rom.length ≤ 3584) :
    ∃ t, construct cfg rom = .next t := by
  rcases construct_cases cfg rom with ⟨-, -, e⟩ | ⟨-, hz, -⟩ | ⟨hlt, -⟩
  · exact ⟨_, e⟩
  · omega
  · omega

/-! ## TICK -/

section
variable {s u : State}

/-- The loop of R172 after a Step that faults: it returns. -/
theorem tickLoop_succ_of_faulted (n : Nat) (hu : engineStep s = .next u) (hr : u.run ≠ .running) :
    tickLoop (n + 1) s = .next u := by
  obtain ⟨r, hf⟩ := State.faulted_of_ne hr
  simp only [tickLoop, hu, hf]

/-- The loop of R172 after a Step that does not fault: it goes on. -/
theorem tickLoop_succ_of_running (n : Nat) (hu : engineStep s = .next u) (hr : u.run = .running) :
    tickLoop (n + 1) s = tickLoop n u := by
  simp only [tickLoop, hu, hr]

theorem State.withTick_zero (h : s.tickStep = 0) : s.withTick 0 = s := by
  cases s
  cases h
  rfl

/-- With n + 1 Steps of a tick left, the machine runs the next one and at most n more to reach the state in which
the loop of R172, which does not count its Steps in the state, ends. -/
theorem tickLoop_reached (n : Nat) (ht : s.tickStep + (n + 1) = s.cfg.cyclesPerTick) :
    ∃ (s' : State) (k : Nat) (t : State), onNext endStep (engineStep s) = .next s' ∧ k ≤ n ∧
      Host.Core.run Sys2Proof.core k s' = .next t ∧
      tickLoop (n + 1) (s.withTick 0) = .next t ∧ t.tickStep = 0 ∧ (t.run = .running → k = n) := by
  induction n using Nat.strong_induction_on generalizing s with
  | _ n ih =>
    obtain ⟨u, hu, heff⟩ := engineStep_effect s
    have hu0 : engineStep (s.withTick 0) = .next (u.withTick 0) := by rw [engineStep_withTick, hu]; rfl
    have hend : onNext endStep (engineStep s) = .next (endStep u) := by rw [hu]; rfl
    have htu : u.tickStep + (n + 1) = u.cfg.cyclesPerTick := by rw [heff.tickStep, heff.cfg, ht]
    by_cases hr : u.run = .running
    · cases n with
      | zero =>
        have hlast : endStep u = (u.withTick 0).decTimers := endStep_of_last hr (by omega)
        exact ⟨_, 0, (u.withTick 0).decTimers, hend, le_rfl, congrArg _ hlast, tickLoop_succ_of_running 0 hu0 hr,
          rfl, fun _ => rfl⟩
      | succ n =>
        have hmid : endStep u = u.withTick (u.tickStep + 1) := endStep_of_midTick hr (by omega)
        obtain ⟨s', k, t, hs', hk, hrun, hloop, ht0, hall⟩ :=
          ih n n.lt_succ_self (s := u.withTick (u.tickStep + 1)) (by rw [← htu]; exact Nat.add_right_comm ..)
        have hstep : step (endStep u) = .next s' := by
          rw [hmid]
          exact (step_of_midTick (s := u.withTick (u.tickStep + 1)) (Nat.succ_ne_zero _) hr).trans hs'
        exact ⟨_, k + 1, t, hend, by omega, (core_run_succ hstep k).trans hrun,
          (tickLoop_succ_of_running (n + 1) hu0 hr).trans hloop, ht0, fun h => by rw [hall h]⟩
    · have hfault : endStep u = u.withTick 0 := endStep_of_faulted hr
      exact ⟨_, 0, u.withTick 0, hend, n.zero_le, congrArg _ hfault, tickLoop_succ_of_faulted n hu0 hr, rfl,
        fun h => absurd h hr⟩

end

end Sys2Proof.Machine

namespace Sys2Proof.Claims

open Sys2Proof.Machine

/-- Settles O19: no operation reads redraw, the log or ST, so each outcome of an instruction carries over. -/
theorem hostOnlyStateIsNotObserved : Obligations.HostOnlyStateIsNotObserved := by
  intro i s t b l v h
  obtain ⟨t', ht', hsame⟩ := SameCore.exec ⟨b, l, v, rfl⟩ i h
  exact ⟨t', ht', hsame.unchangedBut⟩

/-- Settles O22: RESET leaves `State.reset` with the configuration and the ROM's image in place of its own. -/
theorem resetLeavesTheListedValues : Obligations.ResetLeavesTheListedValues := by
  refine ⟨⟨_, construct_standard, rfl⟩, fun cfg rom t h => ?_⟩
  have hfont : ∀ a (ha : a < 80), t.byteAt a = cfg.font[a] := fun a ha =>
    (byteAt_of_construct h (ha.trans (by decide))).trans (Memory.unlisted_of_lt ha)
  have hgap := fun a => byteAt_of_construct_gap h (a := a)
  have hrom := fun a (ha : 0x200 ≤ a) (_ : a < 0x1000) => byteAt_of_construct_rom h ha
  obtain ⟨-, -, rfl⟩ := construct_eq_next h
  have hV : ∀ k : Reg, State.reset.reg k = 0 := fun k => Vector.getElem_replicate k.isLt
  have hstack : ∀ j (hj : j < 16), State.reset.stack[j]'hj = 0 := fun j hj => Vector.getElem_replicate hj
  have hkey : ∀ j (hj : j < 16), State.reset.key[j]'hj = false := fun j hj => Vector.getElem_replicate hj
  exact ⟨rfl, hV, rfl, rfl, hstack, rfl, rfl, rfl, hkey, Framebuffer.pixel_blank, rfl, rfl, rfl, hfont, hgap, hrom,
    rfl, rfl, rfl⟩

/-- Settles O24: the ROM's bytes and the zeros around them, from the image RESET leaves. -/
theorem resetLoadsTheRomVerbatim : Obligations.ResetLoadsTheRomVerbatim := by
  refine fun cfg rom hc => ⟨fun hlen => ?_, construct_of_long cfg⟩
  obtain ⟨t, h⟩ := construct_completes hc hlen
  refine ⟨t, h, fun j hj => ?_, fun a ha _ => ?_, fun a ha ha' => byteAt_of_construct_gap h ha ha'⟩
  · rw [byteAt_of_construct_rom h (by omega), Nat.add_sub_cancel_left, List.getD_eq_getElem _ _ hj]
  · rw [byteAt_of_construct_rom h (by omega), List.getD_eq_default _ _ (by omega)]

/-- Settles O25: the first step takes the TICK and runs its first Step, and `tickLoop_reached` the rest. -/
theorem tickIsReachedByItsSteps : Obligations.TickIsReachedByItsSteps := by
  intro s keys rest hr ht hc hh
  obtain ⟨n, hn⟩ : ∃ n, s.cfg.cyclesPerTick = n + 1 := Nat.exists_eq_add_of_le' hc
  have hlen : s.tickStep + (n + 1) = s.cfg.cyclesPerTick := by omega
  obtain ⟨s', k, t, hs', hk, hrun, hloop, ht0, hall⟩ :=
    tickLoop_reached (s := { s with key := keys, host := rest }) n hlen
  have hstep : step s = .next s' := by
    rw [step_of_boundary (s.atBoundary_iff.mpr (.inl ht)), hostStep_of_tick hr hh]
    exact hs'
  have htick : tick keys { s with host := rest } = .next t := by
    rw [State.withTick_zero (s := { s with key := keys, host := rest }) ht] at hloop
    simp only [tick, hr, hn, ← hloop]
  exact ⟨k + 1, t, k.succ_pos, by omega, (core_run_succ hstep k).trans hrun, htick, ht0,
    fun h => by rw [hn, hall h]⟩

end Sys2Proof.Claims
end

section
/-! Control flow, arithmetic, the index register and the key skips, instruction by instruction
(41_control_flow.md, 42_arithmetic.md, 44_keypad_timer_memory.md). -/

namespace Sys2Proof.Machine

/-! ## Arithmetic on bytes and addresses -/

theorem toNat_sub_byte (a b : Byte) : (a - b).toNat = (a.toNat + 256 - b.toNat) % 256 := by
  rw [BitVec.toNat_sub]
  have := b.isLt
  omega

theorem flagByte_carry (a b : Byte) : flagByte (carry a b) = if 255 < a.toNat + b.toNat then 1 else 0 := by
  simp [flagByte, carry]

theorem flagByte_notBorrow (a b : Byte) : flagByte (notBorrow a b) = if b.toNat ≤ a.toNat then 1 else 0 := by
  simp [flagByte, notBorrow]

theorem toNat_flagByte_right (v : Byte) : (flagByte (shiftedOutRight v)).toNat = v.toNat % 2 := by
  revert v; decide

theorem toNat_flagByte_left (v : Byte) : (flagByte (shiftedOutLeft v)).toNat = v.toNat / 128 := by
  revert v; decide

theorem toNat_shiftRight_one (v : Byte) : (v >>> 1).toNat = v.toNat / 2 := by
  rw [BitVec.toNat_ushiftRight, Nat.shiftRight_eq_div_pow, Nat.pow_one]

theorem toNat_shiftLeft_one (v : Byte) : (v <<< 1).toNat = v.toNat * 2 % 256 := by
  rw [BitVec.toNat_shiftLeft, Nat.shiftLeft_eq, Nat.pow_one]

theorem toNat_glyphAddr (v : Byte) : (glyphAddr v).toNat = 5 * v.toNat := by
  have := v.isLt
  rw [glyphAddr, BitVec.toNat_ofNat]
  omega

namespace State

variable (s : State)

/-- What a result written with its flag leaves: VF holds the flag, Vx the result unless x = F, and every other
register and component is as it was (R110). -/
theorem setRegFlag_writes_only (x : Reg) (v : Byte) (b : Bool) :
    (x ≠ VF → (s.setRegFlag x v b).reg x = v) ∧ (s.setRegFlag x v b).reg VF = flagByte b ∧
      (∀ k, k ≠ x → k ≠ VF → (s.setRegFlag x v b).reg k = s.reg k) ∧
      UnchangedBut [.V] s (s.setRegFlag x v b) := by
  refine ⟨fun hx => ?_, ?_, fun k hk hk' => ?_, s.unchangedBut_setRegFlag x v b⟩
  · rw [setRegFlag_reg, if_neg hx, if_pos rfl]
  · rw [setRegFlag_reg, if_pos rfl]
  · rw [setRegFlag_reg, if_neg hk', if_neg hk]

end State

/-! ## RET and CALL -/

section
variable {s : State}

theorem unchangedBut_ret (n : Fin 17) (v : Word) : UnchangedBut [.SP, .PC] s (State.setPC { s with SP := n } v) :=
  (s.unchangedBut_SP n).trans (State.unchangedBut_setPC _ v)

theorem unchangedBut_call (st : Vector Word 16) (n : Fin 17) (v : Word) :
    UnchangedBut [.stack, .SP, .PC] s (State.setPC { s with stack := st, SP := n } v) :=
  (s.unchangedBut_stack_SP st n).trans (State.unchangedBut_setPC _ v)

end

end Sys2Proof.Machine

namespace Sys2Proof.Claims

open Sys2Proof.Machine

/-- Settles O32: `exec_ret_of_pos` and `exec_ret_of_empty`. -/
theorem retPopsOrUnderflows : Obligations.RetPopsOrUnderflows := fun _ =>
  ⟨fun h => ⟨_, exec_ret_of_pos h, rfl, rfl, unchangedBut_ret _ _⟩, exec_ret_of_empty⟩

/-- Settles O34: the sum of a byte and a 12-bit address lies below 65536, so PC holds it exactly. -/
theorem jpV0AddsTheOffset : Obligations.JpV0AddsTheOffset := by
  refine fun nnn s => ⟨_, rfl, ?_, s.unchangedBut_setPC _⟩
  have := (s.reg 0).isLt
  have := nnn.isLt
  rw [State.setPC_PC, BitVec.toNat_ofNat, toNat_zext16]
  omega

/-- Settles O35: `exec_call_of_lt` and `exec_call_of_full`. -/
theorem callPushesOrOverflows : Obligations.CallPushesOrOverflows := by
  refine fun nnn s => ⟨fun h => ⟨_, exec_call_of_lt nnn h, ?_, fun j hj hne => ?_, rfl, toNat_zext16 nnn,
    unchangedBut_call _ _ _⟩, exec_call_of_full nnn⟩
  · exact Vector.getElem_set_self h
  · exact Vector.getElem_set_ne h hj (Ne.symm hne)

/-- Settles O36: each skip is `skipIf` on the comparison of its operands. -/
theorem skipsAdvanceOnTheirCondition : Obligations.SkipsAdvanceOnTheirCondition := by
  refine ⟨fun x kk s => ⟨_, rfl, ?_, s.unchangedBut_skipIf _⟩,
    fun x kk s => ⟨_, rfl, ?_, s.unchangedBut_skipIf _⟩,
    fun x y s => ⟨_, rfl, ?_, s.unchangedBut_skipIf _⟩, fun x y s => ⟨_, rfl, ?_, s.unchangedBut_skipIf _⟩⟩
  all_goals simp [State.skipIf_PC]

/-- Settles O38: each execution is one register write, and the bits of the results are those of the operands. -/
theorem logicWritesVxAndNoFlag : Obligations.LogicWritesVxAndNoFlag := by
  intro x y s
  obtain ⟨hor, hor'⟩ := s.setReg_writes_only x (s.reg x ||| s.reg y)
  obtain ⟨hand, hand'⟩ := s.setReg_writes_only x (s.reg x &&& s.reg y)
  obtain ⟨hxor, hxor'⟩ := s.setReg_writes_only x (s.reg x ^^^ s.reg y)
  exact ⟨⟨_, rfl, fun j => (congrArg (·.getLsbD j) hor).trans BitVec.getLsbD_or, hor'⟩,
    ⟨_, rfl, fun j => (congrArg (·.getLsbD j) hand).trans BitVec.getLsbD_and, hand'⟩,
    ⟨_, rfl, fun j => (congrArg (·.getLsbD j) hxor).trans BitVec.getLsbD_xor, hxor'⟩⟩

/-- Settles O39: the 8-bit sum, then the carry. -/
theorem addSetsSumThenCarry : Obligations.AddSetsSumThenCarry := by
  intro x y s
  obtain ⟨hx, hflag, hother⟩ := s.setRegFlag_writes_only x (s.reg x + s.reg y) (carry (s.reg x) (s.reg y))
  exact ⟨_, rfl, fun h => (congrArg BitVec.toNat (hx h)).trans (BitVec.toNat_add ..),
    hflag.trans (flagByte_carry ..), hother⟩

/-- Settles O40: the 8-bit difference, then not-borrow. -/
theorem subtractsSetDifferenceThenNotBorrow : Obligations.SubtractsSetDifferenceThenNotBorrow := by
  intro x y s
  obtain ⟨hx, hflag, hother⟩ := s.setRegFlag_writes_only x (s.reg x - s.reg y) (notBorrow (s.reg x) (s.reg y))
  obtain ⟨hx', hflag', hother'⟩ := s.setRegFlag_writes_only x (s.reg y - s.reg x) (notBorrow (s.reg y) (s.reg x))
  exact ⟨⟨_, rfl, fun h => (congrArg BitVec.toNat (hx h)).trans (toNat_sub_byte ..),
      hflag.trans (flagByte_notBorrow ..), hother⟩,
    ⟨_, rfl, fun h => (congrArg BitVec.toNat (hx' h)).trans (toNat_sub_byte ..),
      hflag'.trans (flagByte_notBorrow ..), hother'⟩⟩

/-- Settles O41: the source shifted by one, then the bit shifted out. -/
theorem shiftsSetResultThenBitShiftedOut : Obligations.ShiftsSetResultThenBitShiftedOut := by
  rintro x y s src rfl
  obtain ⟨hx, hflag, hother⟩ :=
    s.setRegFlag_writes_only x (s.shiftSource x y >>> 1) (shiftedOutRight (s.shiftSource x y))
  obtain ⟨hx', hflag', hother'⟩ :=
    s.setRegFlag_writes_only x (s.shiftSource x y <<< 1) (shiftedOutLeft (s.shiftSource x y))
  exact ⟨⟨_, rfl, fun h => (congrArg BitVec.toNat (hx h)).trans (toNat_shiftRight_one _),
      (congrArg BitVec.toNat hflag).trans (toNat_flagByte_right _), hother⟩,
    ⟨_, rfl, fun h => (congrArg BitVec.toNat (hx' h)).trans (toNat_shiftLeft_one _),
      (congrArg BitVec.toNat hflag').trans (toNat_flagByte_left _), hother'⟩⟩

/-- Settles O42: the byte `drawRnd` takes, under the mask, is the one register write. -/
theorem rndMasksOneDrawnByte : Obligations.RndMasksOneDrawnByte := by
  intro x kk s
  obtain ⟨hx, hother, -⟩ := s.drawRnd.2.setReg_writes_only x (s.drawRnd.1 &&& kk)
  refine ⟨_, rfl, fun r rest hl => ?_, fun hl => ?_, fun k hk => (hother k hk).trans (State.drawRnd_reg s k),
    (s.unchangedBut_drawRnd.trans (State.unchangedBut_setReg _ x _)).mono (by decide)⟩
  · have hd : s.drawRnd = (r, { s with rndIn := rest }) := by simp only [State.drawRnd, hl]
    rw [hx]
    simp [hd]
  · have hd : s.drawRnd = (Config.rndByte s.draws, { s with draws := s.draws + 1 }) := by
      simp only [State.drawRnd, hl]
    rw [hx]
    simp [hd, hl]

/-- Settles O46: each execution is one write of I. -/
theorem indexInstrsWriteI : Obligations.IndexInstrsWriteI :=
  ⟨fun nnn s => ⟨_, rfl, toNat_zext16 nnn, s.unchangedBut_setI _⟩,
    fun _ s => ⟨_, rfl, BitVec.toNat_ofNat .., s.unchangedBut_setI _⟩,
    fun x s => ⟨_, rfl, toNat_glyphAddr (s.reg x), s.unchangedBut_setI _⟩⟩

/-- Settles O47: `skipIf` on the key's state where Vx names a key, and the fault's entry above 0xF. -/
theorem keySkipsTestTheKeypad : Obligations.KeySkipsTestTheKeypad := by
  refine fun x s => ⟨fun h => ⟨⟨_, exec_skp_of_lt h, s.skipIf_PC _, s.unchangedBut_skipIf _⟩,
    ⟨_, exec_sknp_of_lt h, ?_, s.unchangedBut_skipIf _⟩⟩, fun h => ⟨exec_skp_of_gt h, exec_sknp_of_gt h⟩⟩
  rw [State.skipIf_PC]
  cases s.key[(s.reg x).toNat] <;> rfl

end Sys2Proof.Claims
end

section
/-! Drawing: the cells a sprite covers, what DRW leaves, and DRW after DRW and after CLS (43_display.md). -/

namespace Sys2Proof.Machine

/-! ## The cells a sprite covers (R131 to R133) -/

section
variable {x0 y0 : Byte} {col row : Nat} {c : Fin 64} {r : Fin 32}

theorem place_wrap_eq_some_iff : place .wrap x0 y0 col row = some (c, r) ↔
    c.val = (x0.toNat + col) % 64 ∧ r.val = (y0.toNat + row) % 32 := by
  simp [place, Fin.ofNat, Fin.ext_iff, eq_comm]

theorem place_clip_eq_some_iff : place .clip x0 y0 col row = some (c, r) ↔
    c.val = x0.toNat % 64 + col ∧ r.val = y0.toNat % 32 + row := by
  have hc := c.isLt
  have hr := r.isLt
  simp only [place]
  split
  · simp [Fin.ext_iff, eq_comm]
  · simp only [reduceCtorEq, false_iff]
    omega

/-- The covered cells are those the model draws. -/
theorem mem_spriteCells_iff_covers {s : State} {n : Nat} :
    (c, r) ∈ s.spriteCells x0 y0 n ↔ Claims.SpriteCovers s x0 y0 n c r := by
  rw [State.mem_spriteCells, Claims.SpriteCovers]
  refine exists_congr fun row => and_congr_right fun _ => exists_congr fun col =>
    and_congr_right fun _ => and_congr_right fun _ => ?_
  cases s.cfg.spriteWrap with
  | wrap => exact place_wrap_eq_some_iff
  | clip => exact place_clip_eq_some_iff

end

/-! ## What DRW leaves (R130, R134) -/

theorem flagByte_eq_one_iff {b : Bool} : flagByte b = 1 ↔ b = true := by cases b <;> decide

theorem flagByte_eq_zero_iff {b : Bool} : flagByte b = 0 ↔ b = false := by cases b <;> decide

section
variable {x y : Reg} {n : Fin 16} {s : State}

/-- DRW with its range inside the memory: each covered cell is toggled, and VF tells whether one was lit. -/
theorem exec_drw_completes (x y : Reg) (h : n.val = 0 ∨ s.I.toNat + n.val ≤ 0x1000) :
    Completes (exec (.drw x y n) s) fun t =>
      (∀ c r, Framebuffer.pixel t.fb c r =
        (Framebuffer.pixel s.fb c r ^^ decide ((c, r) ∈ s.spriteCells (s.reg x) (s.reg y) n.val))) ∧
      t.reg VF = flagByte ((s.spriteCells (s.reg x) (s.reg y) n.val).any fun p =>
        Framebuffer.pixel s.fb p.1 p.2) ∧
      t.redraw = true ∧ (∀ k, k ≠ VF → t.reg k = s.reg k) ∧ UnchangedBut [.V, .fb, .redraw] s t := by
  have hnd := s.nodup_spriteCells (s.reg x) (s.reg y) n.isLt.le
  refine ⟨_, exec_drw_of_inside x y h, Framebuffer.draw_pixel hnd s.fb, ?_, rfl, fun k hk => ?_,
    unchangedBut_draw s _ _⟩
  · rw [← Framebuffer.draw_collision hnd]
    exact State.setReg_reg_self _ VF _
  · exact State.setReg_reg_of_ne _ _ hk

/-- The cells of a sprite depend on memory, I and the configuration alone. -/
theorem spriteCells_of_unchanged {t : State} (h : UnchangedBut [.V, .fb, .redraw] s t) (x0 y0 : Byte) (n : Nat) :
    t.spriteCells x0 y0 n = s.spriteCells x0 y0 n := by
  have hI : t.I = s.I := h .I (by decide)
  have hcfg : t.cfg = s.cfg := h .cfg (by decide)
  have hmem : ∀ a, t.byteAt a = s.byteAt a := h .mem (by decide)
  simp only [State.spriteCells, hI, hcfg, hmem]

end

end Sys2Proof.Machine

namespace Sys2Proof.Claims

open Sys2Proof.Machine

/-- Settles O43: the cells drawn are the covered ones, and each is drawn once. -/
theorem drawTogglesTheSpriteCells : Obligations.DrawTogglesTheSpriteCells := by
  intro x y n s h
  obtain ⟨t, ht, hpix, hVF, hredraw, hother, hframe⟩ := exec_drw_completes x y h
  refine ⟨t, ht, fun c r hc => ?_, fun c r hc => ?_, fun hlit => ?_, fun hunlit => ?_, hredraw, hother, hframe⟩
  · rw [hpix, decide_eq_true (mem_spriteCells_iff_covers.mpr hc), Bool.xor_true]
  · rw [hpix, decide_eq_false (mem_spriteCells_iff_covers.not.mpr hc), Bool.xor_false]
  · obtain ⟨c, r, hc, hp⟩ := hlit
    rw [hVF, flagByte_eq_one_iff, List.any_eq_true]
    exact ⟨(c, r), mem_spriteCells_iff_covers.mpr hc, hp⟩
  · rw [hVF, flagByte_eq_zero_iff, List.any_eq_false]
    intro p hp
    rw [hunlit p.1 p.2 (mem_spriteCells_iff_covers.mp hp)]
    decide

/-- Settles O44: both draws have the same cells, so the second toggles back what the first did, and finds lit
exactly the cells the first lit. -/
theorem drawingTwiceRestoresTheScreen : Obligations.DrawingTwiceRestoresTheScreen := by
  intro x y n s hx hy h
  obtain ⟨t, ht, hpix, -, -, hother, hframe⟩ := exec_drw_completes x y h
  have hI : t.I = s.I := hframe .I (by decide)
  obtain ⟨u, hu, hpix', hVF, -⟩ := exec_drw_completes x y (s := t) (hI ▸ h)
  rw [hother x hx, hother y hy, spriteCells_of_unchanged hframe] at hpix' hVF
  refine ⟨t, u, ht, hu, Framebuffer.ext_pixel fun c r => ?_, ?_, ?_⟩
  · rw [hpix', hpix, Bool.xor_assoc, Bool.xor_self, Bool.xor_false]
  · rw [hVF, flagByte_eq_one_iff, List.any_eq_true]
    constructor
    · rintro ⟨⟨c, r⟩, hmem, hlit⟩
      refine ⟨c, r, ?_, hlit⟩
      simpa [hpix, hmem] using hlit
    · rintro ⟨c, r, hunlit, hlit⟩
      refine ⟨(c, r), ?_, hlit⟩
      simpa [hpix, hunlit] using hlit
  · rw [hVF, flagByte_eq_zero_iff, flagByte_eq_one_iff]
    exact (Bool.eq_false_or_eq_true _).symm

/-- Settles O45: no cell is lit after CLS. -/
theorem drawAfterClearHasNoCollision : Obligations.DrawAfterClearHasNoCollision := by
  intro x y n s h
  obtain ⟨u, hu, -, hVF, -⟩ :=
    exec_drw_completes x y (s := { s with fb := Framebuffer.blank, redraw := true }) h
  refine ⟨_, u, rfl, hu, ?_⟩
  rw [hVF, flagByte_eq_zero_iff, List.any_eq_false]
  intro p _
  rw [Framebuffer.pixel_blank]
  decide

end Sys2Proof.Claims
end

section
/-! The stores and the load at I: LD B, LD [I], Vx and LD Vx, [I] (44_keypad_timer_memory.md). -/

namespace Sys2Proof.Machine

section
variable {s : State} {x : Reg}

/-- The byte a block store puts at I + k is register k's. -/
theorem getElem_map_regsUpTo {k : Nat} (h : k < ((regsUpTo x).map s.reg).length) (hk : k < 16) :
    ((regsUpTo x).map s.reg)[k] = s.reg ⟨k, hk⟩ := by
  rw [List.getElem_map]
  exact congrArg s.reg (Fin.ext (getElem_regsUpTo _))

/-- A checked store inside the range, above `WP_TOP`. -/
theorem storeBytes_byteAt_inside {i : Instr} {a k : Nat} {bs : List Byte} (hk : k < bs.length)
    (hw : s.cfg.wpTop.toNat < a + k) : (s.storeBytes i a bs).byteAt (a + k) = bs[k] := by
  rw [State.storeBytes_byteAt, dif_pos (by omega)]
  simp only [Nat.add_sub_cancel_left]

/-- Outside the range and at or below `WP_TOP` checked stores leave memory alone. -/
theorem storeBytes_byteAt_outside {i : Instr} {a n : Nat} {bs : List Byte}
    (h : n ≤ s.cfg.wpTop.toNat ∨ n < a ∨ a + bs.length ≤ n) : (s.storeBytes i a bs).byteAt n = s.byteAt n := by
  rw [State.storeBytes_byteAt, dif_neg (by omega)]

/-- I after a block access inside the memory (R151, R152; D16). -/
theorem toNat_blockI (h : s.I.toNat + x.val + 1 ≤ 0x1000) :
    (s.blockI (x.val + 1)).toNat =
      if s.cfg.loadStoreQuirk = true then s.I.toNat else s.I.toNat + x.val + 1 := by
  rw [State.blockI]
  split
  · rfl
  · rw [BitVec.toNat_add, BitVec.toNat_ofNat]
    omega

theorem loadRegs_regsUpTo (k : Reg) :
    (s.loadRegs (regsUpTo x)).reg k = if k ≤ x then s.byteAt (s.I.toNat + k.val) else s.reg k := by
  simp only [State.loadRegs_reg, mem_regsUpTo]

end

end Sys2Proof.Machine

namespace Sys2Proof.Claims

open Sys2Proof.Machine

/-- Settles O50: three checked stores of the digits, read back by `storeBytes_byteAt`. -/
theorem bcdStoresThreeDigits : Obligations.BcdStoresThreeDigits := by
  intro x s h
  have hv := (s.reg x).isLt
  have digit : ∀ k (hk : k < 3), s.cfg.wpTop.toNat < s.I.toNat + k →
      (State.storeBytes (.ldB x) s s.I.toNat (bcdDigits (s.reg x))).byteAt (s.I.toNat + k) =
        (bcdDigits (s.reg x))[k]'hk := fun k hk hw => storeBytes_byteAt_inside hk hw
  refine ⟨_, exec_ldB_of_inside x h, fun hw => ?_, fun hw => ?_, fun hw => ?_,
    fun a ha => storeBytes_byteAt_outside ha, State.storeBytes_diaglog .., s.unchangedBut_storeBytes _ _ _⟩
  · exact (congrArg BitVec.toNat (digit 0 (by decide) hw)).trans (Nat.mod_eq_of_lt (by omega))
  · exact (congrArg BitVec.toNat (digit 1 (by decide) hw)).trans (Nat.mod_eq_of_lt (by omega))
  · exact (congrArg BitVec.toNat (digit 2 (by decide) hw)).trans (Nat.mod_eq_of_lt (by omega))

/-- Settles O51: a checked store of each register, read back by `storeBytes_byteAt`, and then I. -/
theorem blockStoreWritesTheRegisters : Obligations.BlockStoreWritesTheRegisters := by
  intro x s h
  have hlen : ((regsUpTo x).map s.reg).length = x.val + 1 := by simp
  refine ⟨_, exec_ldMemVx_of_inside x h, fun k hk hw => ?_, fun a ha => ?_, ?_, toNat_blockI h,
    (s.unchangedBut_storeBytes _ _ _).trans (State.unchangedBut_setI _ _)⟩
  · have hk' : k.val < ((regsUpTo x).map s.reg).length := hlen ▸ Nat.lt_succ_of_le hk
    exact (storeBytes_byteAt_inside hk' hw).trans (getElem_map_regsUpTo hk' k.isLt)
  · exact storeBytes_byteAt_outside (by rw [hlen]; omega)
  · rw [State.setI_diaglog, State.storeBytes_diaglog, hlen]
    rfl

/-- Settles O52: `loadRegs_reg` for the registers up to x, and then I. -/
theorem blockLoadReadsTheRegisters : Obligations.BlockLoadReadsTheRegisters := by
  intro x s h
  refine ⟨_, exec_ldVxMem_of_inside x h, fun k hk => ?_, fun k hk => ?_, toNat_blockI h,
    (s.unchangedBut_loadRegs _).trans (State.unchangedBut_setI _ _)⟩
  · rw [State.setI_reg, loadRegs_regsUpTo, if_pos hk]
  · rw [State.setI_reg, loadRegs_regsUpTo, if_neg (not_le.mpr hk)]

/-- Settles O53: register k goes to the byte at I + k (O51) and comes back from it (O52). -/
theorem blockStoreThenLoadRestores : Obligations.BlockStoreThenLoadRestores := by
  intro x s t u h hw ht hmem hI
  obtain ⟨t', ht', hstore, -⟩ := blockStoreWritesTheRegisters x s h
  obtain rfl : t' = t := Host.Outcome.next.inj (ht'.symm.trans ht)
  obtain ⟨v, hv, hload, -⟩ := blockLoadReadsTheRegisters x u (hI ▸ h)
  refine ⟨v, hv, fun k hk => ?_⟩
  rw [hload k hk, hmem, hI, hstore k hk (by omega)]

end Sys2Proof.Claims
end
